-- ==== Sys2Proof/Word.lean ====
section
/-!
DEFINITION. The word of the block: one 32-bit unsigned value (spec R7, R10, parameter VALUE_BITS = 32).
-/

namespace Sys2Proof

/-- One stored cell, and one value returned by READ: an unsigned value in 0 .. 2^32 - 1 (R7, R10). -/
abbrev Word := BitVec 32

end Sys2Proof
end

