-- ==== Sys2Proof/Syntax.lean ====
section
/-!
DEFINITION. The syntax: the 18 register names (R14), the request descriptor (R70, R71), the operations
(one constructor of `Instr` per row of spec/opcode_table.json, R77), what the host may put to the
block's port (R65, R72, R80, R81), the response (R71) and the trace events (R184, R185).
-/

namespace Sys2Proof

/-- The 18 named registers, in the order of R14. Their offsets are `Reg.offset` (Decode.lean). -/
inductive Reg where
  | cr | icscr | cfgr | pllcfgr | cier | cifr | cicr | ahb1enr | ahb2enr | ahb3enr
  | apb1enr1 | apb1enr2 | apb2enr | ccipr | bdcr | csr | crrcr | ccipr2
  deriving DecidableEq, Repr

/-- A request descriptor in the abstract form R71 asks a model to prefer: exactly one of INIT, READ and
WRITE. Offsets are "any unsigned integer" (R52) and values are of "arbitrary width" (R75), so both
are natural numbers. -/
inductive Req where
  | init
  | read (off : Nat)
  | write (off : Nat) (value : Nat)
  deriving DecidableEq, Repr

/-- The operations: one constructor per row of spec/opcode_table.json (R77). A `value` is the value the
request carries, before the cut to 32 bits that every WRITE begins with (R75, R105). -/
inductive Instr where
  | init
  | read (off : Nat)
  | writeCr (value : Nat)
  | writeCfgr (value : Nat)
  | writeCrrcr (value : Nat)
  | writePllcfgr (value : Nat)
  | writeCier (value : Nat)
  | writeCifr (value : Nat)
  | writeCicr (value : Nat)
  | writeBdcr (value : Nat)
  | writeCsr (value : Nat)
  | writeCcipr (value : Nat)
  | writeCcipr2 (value : Nat)
  | writeAhb1enr (value : Nat)
  | writeAhb2enr (value : Nat)
  | writeAhb3enr (value : Nat)
  | writeApb1enr1 (value : Nat)
  | writeApb1enr2 (value : Nat)
  | writeApb2enr (value : Nat)
  | writeIcscr (value : Nat)
  | writeOther (off : Nat) (value : Nat)
  deriving DecidableEq, Repr

/-- The row of spec/opcode_table.json an operation stands for, letter for letter. -/
def Instr.mnemonic : Instr → String
  | .init => "INIT"
  | .read _ => "READ"
  | .writeCr _ => "WRITE.CR"
  | .writeCfgr _ => "WRITE.CFGR"
  | .writeCrrcr _ => "WRITE.CRRCR"
  | .writePllcfgr _ => "WRITE.PLLCFGR"
  | .writeCier _ => "WRITE.CIER"
  | .writeCifr _ => "WRITE.CIFR"
  | .writeCicr _ => "WRITE.CICR"
  | .writeBdcr _ => "WRITE.BDCR"
  | .writeCsr _ => "WRITE.CSR"
  | .writeCcipr _ => "WRITE.CCIPR"
  | .writeCcipr2 _ => "WRITE.CCIPR2"
  | .writeAhb1enr _ => "WRITE.AHB1ENR"
  | .writeAhb2enr _ => "WRITE.AHB2ENR"
  | .writeAhb3enr _ => "WRITE.AHB3ENR"
  | .writeApb1enr1 _ => "WRITE.APB1ENR1"
  | .writeApb1enr2 _ => "WRITE.APB1ENR2"
  | .writeApb2enr _ => "WRITE.APB2ENR"
  | .writeIcscr _ => "WRITE.ICSCR"
  | .writeOther _ _ => "WRITE.OTHER"

/-- Why a request word is refused by the decoder: the only encoding that spells no operation is a kind
other than 0, 1 and 2 (R79, D12). -/
inductive DecodeError where
  | kindNotRequest (kind : Nat)
  deriving DecidableEq, Repr

/-- One row of the operation table (R77): a word selects the row when `(REQ & mask) = pattern`. -/
structure OpcodeRow where
  mnemonic : String
  pattern : BitVec 66
  mask : BitVec 66
  priority : Nat
  deriving DecidableEq, Repr

/-- What the host does next at the block's port.
* `word`: a 66-bit request word (R72), as a natural number with bit 0 the least significant.
* `desc`: a request descriptor (R70), the form of the source.
* `load`, `store`: an access by the host's processor at a bus address, of `nbytes` bytes (R65).
* `rmw`: the pseudo-operation `RMW off, clr, set`: a READ and then a WRITE of the value read with the
  bits `clr` cleared and the bits `set` set (R81).
* `poll`: the pseudo-operation `POLL off, m, want`: READ repeated until `(t & m) = want` (R81). -/
inductive HostEvent where
  | word (w : Nat)
  | desc (q : Req)
  | load (addr nbytes : Nat)
  | store (addr nbytes value : Nat)
  | rmw (off : Nat) (clr set : Word)
  | poll (off : Nat) (m want : Word)
  deriving DecidableEq, Repr

/-- `SETB off, m` stands for `RMW off, 0, m` (R81). -/
def HostEvent.setb (off : Nat) (m : Word) : HostEvent := .rmw off 0 m

/-- `CLRB off, m` stands for `RMW off, m, 0` (R81). -/
def HostEvent.clrb (off : Nat) (m : Word) : HostEvent := .rmw off m 0

/-- What the block hands back: a 32-bit value for a READ, nothing for INIT and WRITE (R71). -/
inductive Resp where
  | none
  | value (v : Word)
  deriving DecidableEq, Repr

/-- One line handed to the host's logging sink: one per operation (R184, R185). Its text is
`TraceEvent.text` (Machine/Ops.lean). -/
inductive TraceEvent where
  | init
  | read (off : Nat)
  | write (off : Nat) (value : Word)
  deriving DecidableEq, Repr

end Sys2Proof
end

