-- ==== Sys2Proof/Decode.lean ====
section
/-!
DEFINITION. The address map (R14), the decoder (R72, R73, R76), the encoder (R82) and the operation
table of spec/opcode_table.json as data (R77).
-/

namespace Sys2Proof

/-! ### The address map -/

/-- The byte offset of a named register from the peripheral base (R14). -/
def Reg.offset : Reg → Nat
  | .cr => 0x00
  | .icscr => 0x04
  | .cfgr => 0x08
  | .pllcfgr => 0x0C
  | .cier => 0x18
  | .cifr => 0x1C
  | .cicr => 0x20
  | .ahb1enr => 0x48
  | .ahb2enr => 0x4C
  | .ahb3enr => 0x50
  | .apb1enr1 => 0x58
  | .apb1enr2 => 0x5C
  | .apb2enr => 0x60
  | .ccipr => 0x88
  | .bdcr => 0x90
  | .csr => 0x94
  | .crrcr => 0x98
  | .ccipr2 => 0xA8

/-- The 18 named registers (R14). -/
def Reg.all : List Reg :=
  [.cr, .icscr, .cfgr, .pllcfgr, .cier, .cifr, .cicr, .ahb1enr, .ahb2enr, .ahb3enr,
   .apb1enr1, .apb1enr2, .apb2enr, .ccipr, .bdcr, .csr, .crrcr, .ccipr2]

/-- The 18 named offsets; every other offset is an unnamed cell (R14, R34). -/
def namedOffsets : List Nat := Reg.all.map Reg.offset

/-! ### Decoding -/

/-- Stage two of the decoding of a WRITE: "first match wins", tried in the order CR, CFGR, CRRCR, the
14 pass-through registers in the order of write rule 4, any other offset (R76, R106). The offset is
compared whole, as an integer. -/
def dispatchWrite (off value : Nat) : Instr :=
  if off = Reg.cr.offset then .writeCr value
  else if off = Reg.cfgr.offset then .writeCfgr value
  else if off = Reg.crrcr.offset then .writeCrrcr value
  else if off = Reg.pllcfgr.offset then .writePllcfgr value
  else if off = Reg.cier.offset then .writeCier value
  else if off = Reg.cifr.offset then .writeCifr value
  else if off = Reg.cicr.offset then .writeCicr value
  else if off = Reg.bdcr.offset then .writeBdcr value
  else if off = Reg.csr.offset then .writeCsr value
  else if off = Reg.ccipr.offset then .writeCcipr value
  else if off = Reg.ccipr2.offset then .writeCcipr2 value
  else if off = Reg.ahb1enr.offset then .writeAhb1enr value
  else if off = Reg.ahb2enr.offset then .writeAhb2enr value
  else if off = Reg.ahb3enr.offset then .writeAhb3enr value
  else if off = Reg.apb1enr1.offset then .writeApb1enr1 value
  else if off = Reg.apb1enr2.offset then .writeApb1enr2 value
  else if off = Reg.apb2enr.offset then .writeApb2enr value
  else if off = Reg.icscr.offset then .writeIcscr value
  else .writeOther off value

/-- The operation a request selects; total, since no offset and no value makes a request illegal
(R76, R78). -/
def dispatch : Req → Instr
  | .init => .init
  | .read off => .read off
  | .write off value => dispatchWrite off value

/-- The field REQ[63:32] of a request word (R72). -/
def wordOffset (w : Nat) : Nat := w / 2 ^ 32 % 2 ^ 32

/-- The field REQ[31:0] of a request word (R72). -/
def wordValue (w : Nat) : Nat := w % 2 ^ 32

/-- The bits of a request word from bit 64 up. In a 66-bit word this is the field `kind`, REQ[65:64]
(R72); a longer number has a kind of 4 or more and is refused with the rest (log entry 8). -/
def wordKind (w : Nat) : Nat := w / 2 ^ 64

/-- Stage one: the request a word carries, by its kind: 0 INIT, 1 READ, 2 WRITE (R72, R73). Fields an
operation does not use are ignored (R74). Any other kind is refused by name (R79). -/
def reqOfWord (w : Nat) : Except DecodeError Req :=
  match wordKind w with
  | 0 => .ok .init
  | 1 => .ok (.read (wordOffset w))
  | 2 => .ok (.write (wordOffset w) (wordValue w))
  | k => .error (.kindNotRequest k)

/-- The decoder: total on every number, and the operation is well-formed when it answers one. -/
def decodeWord (w : Nat) : Except DecodeError Instr :=
  match reqOfWord w with
  | .ok q => .ok (dispatch q)
  | .error e => .error e

/-- The host's view of the decoder: the operation read from a word of `nbits` bits, numbered as
spec/opcode_table.json numbers them. -/
def decodeTableWord (nbits w : Nat) : Option Instr :=
  match decodeWord (w % 2 ^ nbits) with
  | .ok i => some i
  | .error _ => none

/-! ### Encoding -/

/-- The request that stands for an operation (R76 read backwards). -/
def toReq : Instr → Req
  | .init => .init
  | .read off => .read off
  | .writeCr v => .write Reg.cr.offset v
  | .writeCfgr v => .write Reg.cfgr.offset v
  | .writeCrrcr v => .write Reg.crrcr.offset v
  | .writePllcfgr v => .write Reg.pllcfgr.offset v
  | .writeCier v => .write Reg.cier.offset v
  | .writeCifr v => .write Reg.cifr.offset v
  | .writeCicr v => .write Reg.cicr.offset v
  | .writeBdcr v => .write Reg.bdcr.offset v
  | .writeCsr v => .write Reg.csr.offset v
  | .writeCcipr v => .write Reg.ccipr.offset v
  | .writeCcipr2 v => .write Reg.ccipr2.offset v
  | .writeAhb1enr v => .write Reg.ahb1enr.offset v
  | .writeAhb2enr v => .write Reg.ahb2enr.offset v
  | .writeAhb3enr v => .write Reg.ahb3enr.offset v
  | .writeApb1enr1 v => .write Reg.apb1enr1.offset v
  | .writeApb1enr2 v => .write Reg.apb1enr2.offset v
  | .writeApb2enr v => .write Reg.apb2enr.offset v
  | .writeIcscr v => .write Reg.icscr.offset v
  | .writeOther off v => .write off v

/-- The word of a request (R82): ignored fields are zero, and a value wider than 32 bits is cut before
it fills REQ[31:0] (R75). An offset of 2^32 or more has no word of this layout. -/
def wordOfReq : Req → Nat
  | .init => 0
  | .read off => 1 * 2 ^ 64 + off * 2 ^ 32
  | .write off value => 2 * 2 ^ 64 + off * 2 ^ 32 + value % 2 ^ 32

/-- The encoder: the canonical 66-bit word of an operation (R82). -/
def encode (i : Instr) : Nat := wordOfReq (toReq i)

/-! ### The operation table as data -/

/-- The row of one WRITE sub-operation: kind and offset are fixed (mask 0x3_FFFFFFFF_00000000). -/
def writeRow (mnemonic : String) (pattern : BitVec 66) (priority : Nat) : OpcodeRow :=
  { mnemonic := mnemonic, pattern := pattern, mask := 0x3FFFFFFFF00000000#66, priority := priority }

/-- The 21 rows of spec/opcode_table.json in ascending priority (R77). -/
def opcodeTable : List OpcodeRow :=
  [ { mnemonic := "INIT", pattern := 0x00000000000000000#66,
      mask := 0x30000000000000000#66, priority := 0 },
    { mnemonic := "READ", pattern := 0x10000000000000000#66,
      mask := 0x30000000000000000#66, priority := 0 },
    writeRow "WRITE.CR" 0x20000000000000000#66 1,
    writeRow "WRITE.CFGR" 0x20000000800000000#66 2,
    writeRow "WRITE.CRRCR" 0x20000009800000000#66 3 ] ++
  [ writeRow "WRITE.PLLCFGR" 0x20000000C00000000#66 4,
    writeRow "WRITE.CIER" 0x20000001800000000#66 4,
    writeRow "WRITE.CIFR" 0x20000001C00000000#66 4,
    writeRow "WRITE.CICR" 0x20000002000000000#66 4,
    writeRow "WRITE.BDCR" 0x20000009000000000#66 4,
    writeRow "WRITE.CSR" 0x20000009400000000#66 4,
    writeRow "WRITE.CCIPR" 0x20000008800000000#66 4,
    writeRow "WRITE.CCIPR2" 0x2000000A800000000#66 4 ] ++
  [ writeRow "WRITE.AHB1ENR" 0x20000004800000000#66 4,
    writeRow "WRITE.AHB2ENR" 0x20000004C00000000#66 4,
    writeRow "WRITE.AHB3ENR" 0x20000005000000000#66 4,
    writeRow "WRITE.APB1ENR1" 0x20000005800000000#66 4,
    writeRow "WRITE.APB1ENR2" 0x20000005C00000000#66 4,
    writeRow "WRITE.APB2ENR" 0x20000006000000000#66 4,
    writeRow "WRITE.ICSCR" 0x20000000400000000#66 5,
    { mnemonic := "WRITE.OTHER", pattern := 0x20000000000000000#66,
      mask := 0x30000000000000000#66, priority := 6 } ]

/-- The row a 66-bit word selects: the first, in ascending priority, with `(REQ & mask) = pattern`
(R77). -/
def selectRow (w : BitVec 66) : Option OpcodeRow :=
  opcodeTable.find? fun r => w &&& r.mask == r.pattern

end Sys2Proof
end

