-- ==== Sys2Proof/Config.lean ====
section
/-!
DEFINITION. What the spec leaves to the platform or leaves open (00_scope.md section 5,
92_eei_decisions.md): every value here is a constant without a body, so that no proof can use it.
The parameters the spec itself settles (VALUE_BITS = 32, SWS_HOLD = written, INIT_CLEARS_ALL = true)
are built into the operations; OFFSET_BITS and VALUE_IN_BITS are unbounded (log entries 3 and 4).
-/

namespace Sys2Proof

/-- RCC_BASE: the bus address of offset 0, owned by the host (R51, D4). Free value, log entry 5. -/
opaque Config.rccBase : Nat

/-- How far RCC_WINDOW exceeds its least size 0xAC (D4). Free value, log entry 5. -/
opaque Config.rccWindowSpare : Nat

/-- RCC_WINDOW: the size in bytes of the window the host routes to the block, at least 0xAC (D4). -/
def Config.rccWindow : Nat := 0xAC + Config.rccWindowSpare

/-- The text of the trace line of a READ, by the number of earlier lines and the offset read. The
wording and digit format are not in the source (R185, U8). Free value, log entry 6. -/
opaque Config.readTraceText : (lineNo offset : Nat) → String

/-- The text of the trace line of a WRITE, by the number of earlier lines, the offset and the masked
value. The wording and format are not in the source (R185, U8). Free value, log entry 6. -/
opaque Config.writeTraceText : (lineNo offset : Nat) → (value : Word) → String

end Sys2Proof
end

