-- ==== Sys2Proof/Machine/State.lean ====
section
/-!
DEFINITION. The state as plain data, the reasons a step can stop, and the two states the spec gives:
power-on (R46) and after INIT (R45).
-/

namespace Sys2Proof.Machine

/-- The register file `RF` (R10): the cells that do not hold 0, by offset. A cell is one indivisible
32-bit value keyed by an integer offset, not four bytes (R55). The canonical form (`RegFile.Wf`,
Ops.lean) lists offsets strictly rising and no cell that holds 0, so equal register files are equal
lists. The named registers of R14 are views of these cells (R15: no aliases, no shadow copies). -/
abbrev RegFile := List (Nat × Word)

/-- What a cell that is not listed reads as: "absent entries default to zero, never error" (R11). -/
def RegFile.unlisted : Word := 0

/-- The faults of the machine: none. "There is no error taxonomy: every operation is total" (R170); the
set of synchronous exceptions is empty, so no constructor stands here and nobody raises one. -/
inductive Fault where
  deriving DecidableEq, Repr

/-- Why a step is refused. -/
inductive Refusal where
  /-- An operation whose meaning is not written. Raised by no arm of `exec`. Safe. -/
  | notModelled (mnemonic : String)
  /-- A request word whose kind is none of 0, 1 and 2 (R79, D12). Raised by the fetch. Safe. -/
  | kindNotRequest (kind : Nat)
  /-- A bus access of other than four bytes: the port has no such request (R54, D5). Raised by the
  fetch. Safe. -/
  | accessSize (nbytes : Nat)
  /-- A bus access outside the window the host routes to the block: what the host does there is a
  stated non-goal (R172, N11). Raised by the fetch. Safe. -/
  | outsideWindow (addr : Nat)
  deriving DecidableEq, Repr

/-- The block and what stands at its port. `rf` is the whole architectural state (R10, R44); the other
three fields are the model's own: the response of the latest operation (R71), the trace lines handed
to the host's sink so far, oldest first (R184), and what the host is yet to ask, next first (R5,
R180). The block reads neither `resp` nor `trace`. -/
structure State where
  rf : RegFile
  resp : Resp
  trace : List TraceEvent
  host : List HostEvent
  deriving DecidableEq, Repr

/-- Power-on, before any INIT: every cell 0 (R46, R190). -/
def State.powerOn : State := { rf := [], resp := .none, trace := [], host := [] }

/-- After INIT, the block's only reset, issued at power-on: CR = 0x00000500, every other cell 0 (R45,
R191); INIT answers nothing (R71) and has handed its one line to the sink (R90, R185). -/
def State.reset : State :=
  { rf := [(0x00, 0x00000500)], resp := .none, trace := [.init], host := [] }

end Sys2Proof.Machine
end

