-- ==== Sys2Proof/Machine/Operands.lean ====
section
/-!
DEFINITION. The operand forms: the cut of a written value to 32 bits (R8, R75), bit fields and their
positions (00_scope.md section 6, R9), and the pure helper shapes of R81.
-/

namespace Sys2Proof.Machine

/-- `mask32(v) = v mod 2^32`, applied to the value of every WRITE before any processing (R8, R75). -/
def mask32 (v : Nat) : Word := BitVec.ofNat 32 v

/-- The value a request carries when the host's machine word is signed and `width` bits wide: its bits
are taken as they are, two's complement (R75, D3). -/
def signedHostWord (width : Nat) (x : Int) : Nat := (BitVec.ofInt width x).toNat

/-- `v[i]`, a single bit. -/
def bit (v : Word) (i : Nat) : Bool := v.getLsbD i

/-- `v[hi:lo]` for a two-bit field at `lo`. -/
def field2 (v : Word) (lo : Nat) : BitVec 2 := v.extractLsb' lo 2

/-- `insert(v, hi, lo, f)`: `v` with the bits `hi` down to `lo` replaced by `f` (00_scope.md section
6). -/
def insertBits (v : Word) (hi lo : Nat) (f : Word) : Word :=
  (v &&& ~~~(BitVec.ofNat 32 (2 ^ (hi - lo + 1) - 1) <<< lo)) ||| (f <<< lo)

/-- `insert(v, i, i, b)`: one bit replaced. -/
def insertBit (v : Word) (i : Nat) (b : Bool) : Word := insertBits v i i ((BitVec.ofBool b).setWidth 32)

/-! ### Bit positions (R9) -/

def hsionBit : Nat := 8
def hsirdyBit : Nat := 10
def hseonBit : Nat := 16
def hserdyBit : Nat := 17
def pllonBit : Nat := 24
def pllrdyBit : Nat := 25
def swLo : Nat := 0
def swsLo : Nat := 2
def swsHi : Nat := 3
def hsi48onBit : Nat := 0
def hsi48rdyBit : Nat := 1

/-- The mask `HSION | HSIRDY`, which INIT sets in CR (R90 step 2). -/
def hsiOnReady : Word := 0x00000500

/-- SW of a CFGR value: bits 1:0 (R9, R36). -/
def swOf (cfgr : Word) : BitVec 2 := field2 cfgr swLo

/-- SWS of a CFGR value: bits 3:2 (R9, R37). -/
def swsOf (cfgr : Word) : BitVec 2 := field2 cfgr swsLo

/-- `insert(c, 3, 2, sws)`: a CFGR value with SWS replaced (R155). -/
def withSws (cfgr : Word) (sws : BitVec 2) : Word :=
  insertBits cfgr swsHi swsLo (sws.setWidth 32)

/-! ### The helper shapes of R81 -/

/-- `(t & m) != 0`. -/
def anySet (t m : Word) : Bool := t &&& m != 0

/-- `enabled ? (t | m) : (t & ~m)`. -/
def withBits (t m : Word) (enabled : Bool) : Word := if enabled then t ||| m else t &&& ~~~m

/-- The value an `RMW` writes back: `(t & ~clr) | set` (R81). -/
def rmwValue (t clr set : Word) : Word := (t &&& ~~~clr) ||| set

end Sys2Proof.Machine
end

