-- ==== Sys2Proof/Machine/Flags.lean ====
section
/-!
DEFINITION. The flag computations: the forced ready bits of CR (R110) and CRRCR (R130), and the
decision table that computes SWS (R155).
-/

namespace Sys2Proof.Machine

/-- `cr_store(v)`: HSIRDY, HSERDY and PLLRDY forced to HSION, HSEON and PLLON of the same value
(R110). -/
def crStore (v : Word) : Word :=
  insertBit
    (insertBit (insertBit v hsirdyBit (bit v hsionBit)) hserdyBit (bit v hseonBit))
    pllrdyBit (bit v pllonBit)

/-- `crrcr_store(v)`: HSI48RDY forced to HSI48ON of the same value (R130). -/
def crrcrStore (v : Word) : Word := insertBit v hsi48rdyBit (bit v hsi48onBit)

/-- The decision table of `applySwsFromSw`, rows 1 to 5 in order, on the current CFGR and CR (R155):
0 = HSI, 1 = HSE, 2 = PLL, 3 = MSI. -/
def swsNext (cfgr cr : Word) : BitVec 2 :=
  if swOf cfgr = 0 ∧ bit cr hsirdyBit = true then 0
  else if swOf cfgr = 1 ∧ bit cr hserdyBit = true then 1
  else if swOf cfgr = 2 ∧ bit cr pllrdyBit = true then 2
  else if swOf cfgr = 3 then 3
  else swsOf cfgr

/-- CFGR as `applySwsFromSw` rewrites it: SWS replaced, SW and every other bit preserved (R155). -/
def cfgrNext (cfgr cr : Word) : Word := withSws cfgr (swsNext cfgr cr)

end Sys2Proof.Machine
end

