-- ==== Sys2Proof/Machine/Ops.lean ====
section
/-!
DEFINITION. The named operations over the register file and the port. There is no operation that takes
an exception and none that returns from one: the block has no trap mechanism (R170, R176, R177).
-/

namespace Sys2Proof.Machine

/-! ### The register file -/

/-- The canonical form: offsets strictly rising, and no entry equal to what an unlisted cell reads
as. -/
abbrev RegFile.Wf (rf : RegFile) : Prop :=
  rf.Pairwise (fun c d => c.1 < d.1) ∧ ∀ c ∈ rf, c.2 ≠ RegFile.unlisted

/-- `RF[o]`: the cell at offset `o`, 0 if it is not listed (R10, R11). The offset is the key, used
directly: not masked, not aligned (R52, R56). -/
def RegFile.get : RegFile → Nat → Word
  | [], _ => RegFile.unlisted
  | (k, x) :: rest, o => if o = k then x else RegFile.get rest o

/-- The register file without the cell at `o`. -/
def RegFile.erase (rf : RegFile) (o : Nat) : RegFile := rf.filter fun c => c.1 != o

/-- The entry `(o, v)` put in its place by offset. -/
def RegFile.insert : RegFile → Nat → Word → RegFile
  | [], o, v => [(o, v)]
  | (k, x) :: rest, o, v =>
    if o < k then (o, v) :: (k, x) :: rest else (k, x) :: RegFile.insert rest o v

/-- `RF[o] <- v`: the cell at `o` takes `v`, every other cell keeps its value (00_scope.md section 6);
the canonical form is kept. -/
def RegFile.put (rf : RegFile) (o : Nat) (v : Word) : RegFile :=
  if v = RegFile.unlisted then rf.erase o else (rf.erase o).insert o v

/-! ### State -/

/-- The cell at an offset. -/
def State.cell (s : State) (o : Nat) : Word := s.rf.get o

/-- The named view of a cell (R14). -/
def State.reg (s : State) (r : Reg) : Word := s.cell r.offset

/-- Store into one cell. -/
def State.setCell (s : State) (o : Nat) (v : Word) : State := { s with rf := s.rf.put o v }

/-- "For every offset o: RF[o] <- 0" (R90 step 1, D9). -/
def State.zeroAll (s : State) : State := { s with rf := [] }

/-- Hand one line to the trace sink (R184). -/
def State.emit (s : State) (e : TraceEvent) : State := { s with trace := s.trace ++ [e] }

/-- The response of the operation (R71). -/
def State.respond (s : State) (r : Resp) : State := { s with resp := r }

/-- `applySwsFromSw` (R155): CFGR is rewritten from the current CFGR and the current CR. -/
def State.applySwsFromSw (s : State) : State :=
  s.setCell Reg.cfgr.offset (cfgrNext (s.reg .cfgr) (s.reg .cr))

/-- The text of the line numbered `lineNo` (R185): INIT's is given exactly, the other two are free. -/
def TraceEvent.text (lineNo : Nat) : TraceEvent → String
  | .init => "RCC: init done (HSI ready, SWS=HSI)"
  | .read off => Config.readTraceText lineNo off
  | .write off value => Config.writeTraceText lineNo off value

/-! ### The common part of WRITE -/

/-- The common part of every WRITE (R105): the value is cut to 32 bits, the trace line is emitted, and
the cell at the offset takes `f` of the cut value. -/
def State.storeCell (s : State) (f : Word → Word) (o value : Nat) : State :=
  (s.emit (.write o (mask32 value))).setCell o (f (mask32 value))

/-- A WRITE that stores `f` of the cut value and does nothing else; it answers nothing (R71, R105). -/
def writeWith (f : Word → Word) (o value : Nat) (s : State) : Host.Outcome State Fault Refusal :=
  .next ((s.storeCell f o value).respond .none)

/-- "Store the masked value verbatim, no derived effects": write rules 4 and 5 (R105, R135 to
R150). -/
def writeVerbatim (o value : Nat) (s : State) : Host.Outcome State Fault Refusal :=
  writeWith id o value s

end Sys2Proof.Machine
end

