-- ==== Sys2Proof/Machine/InitRead.lean ====
section
/-!
DEFINITION. The operations INIT (40_init.md) and READ (41_read.md).
-/

namespace Sys2Proof.Machine

/-- INIT (R90): zero every cell, set HSION and HSIRDY in CR, run `applySwsFromSw`, emit the line, answer
nothing. -/
def execInit (s : State) : Host.Outcome State Fault Refusal :=
  let zeroed := s.zeroAll
  let ready := zeroed.setCell Reg.cr.offset (zeroed.reg .cr ||| hsiOnReady)
  .next ((ready.applySwsFromSw.emit .init).respond .none)

/-- READ (R100): answer the cell at the offset, for every offset alike (R102); no mutation. -/
def execRead (off : Nat) (s : State) : Host.Outcome State Fault Refusal :=
  .next ((s.emit (.read off)).respond (.value (s.cell off)))

end Sys2Proof.Machine
end

