-- ==== Sys2Proof/Machine/WritePassthrough.lean ====
section
/-!
DEFINITION. The WRITE sub-operations that store the cut value and do nothing else
(46_write_passthrough.md): the 14 pass-through registers of write rule 4, then ICSCR and every other
offset under write rule 5.
-/

namespace Sys2Proof.Machine

/-- WRITE.PLLCFGR (R135): PLL readiness depends on PLLON alone. -/
def execWritePllcfgr (value : Nat) (s : State) : Host.Outcome State Fault Refusal :=
  writeVerbatim Reg.pllcfgr.offset value s

/-- WRITE.CIER (R136): it enables no interrupt. -/
def execWriteCier (value : Nat) (s : State) : Host.Outcome State Fault Refusal :=
  writeVerbatim Reg.cier.offset value s

/-- WRITE.CIFR (R137): the block never sets a flag in it. -/
def execWriteCifr (value : Nat) (s : State) : Host.Outcome State Fault Refusal :=
  writeVerbatim Reg.cifr.offset value s

/-- WRITE.CICR (R138): it clears nothing in CIFR. -/
def execWriteCicr (value : Nat) (s : State) : Host.Outcome State Fault Refusal :=
  writeVerbatim Reg.cicr.offset value s

/-- WRITE.BDCR (R139): no ready bit in it is forced. -/
def execWriteBdcr (value : Nat) (s : State) : Host.Outcome State Fault Refusal :=
  writeVerbatim Reg.bdcr.offset value s

/-- WRITE.CSR (R140): no ready bit in it is forced, no reset-cause flag is set. -/
def execWriteCsr (value : Nat) (s : State) : Host.Outcome State Fault Refusal :=
  writeVerbatim Reg.csr.offset value s

/-- WRITE.CCIPR (R141): no clock selection follows. -/
def execWriteCcipr (value : Nat) (s : State) : Host.Outcome State Fault Refusal :=
  writeVerbatim Reg.ccipr.offset value s

/-- WRITE.CCIPR2 (R142): no clock selection follows. -/
def execWriteCcipr2 (value : Nat) (s : State) : Host.Outcome State Fault Refusal :=
  writeVerbatim Reg.ccipr2.offset value s

/-- WRITE.AHB1ENR (R143): no other peripheral is gated by it. -/
def execWriteAhb1enr (value : Nat) (s : State) : Host.Outcome State Fault Refusal :=
  writeVerbatim Reg.ahb1enr.offset value s

/-- WRITE.AHB2ENR (R144): no other peripheral is gated by it. -/
def execWriteAhb2enr (value : Nat) (s : State) : Host.Outcome State Fault Refusal :=
  writeVerbatim Reg.ahb2enr.offset value s

/-- WRITE.AHB3ENR (R145): no other peripheral is gated by it. -/
def execWriteAhb3enr (value : Nat) (s : State) : Host.Outcome State Fault Refusal :=
  writeVerbatim Reg.ahb3enr.offset value s

/-- WRITE.APB1ENR1 (R146): no other peripheral is gated by it. -/
def execWriteApb1enr1 (value : Nat) (s : State) : Host.Outcome State Fault Refusal :=
  writeVerbatim Reg.apb1enr1.offset value s

/-- WRITE.APB1ENR2 (R147): no other peripheral is gated by it. -/
def execWriteApb1enr2 (value : Nat) (s : State) : Host.Outcome State Fault Refusal :=
  writeVerbatim Reg.apb1enr2.offset value s

/-- WRITE.APB2ENR (R148): no other peripheral is gated by it. -/
def execWriteApb2enr (value : Nat) (s : State) : Host.Outcome State Fault Refusal :=
  writeVerbatim Reg.apb2enr.offset value s

/-- WRITE.ICSCR (R149): a named register served by the fallback, write rule 5. -/
def execWriteIcscr (value : Nat) (s : State) : Host.Outcome State Fault Refusal :=
  writeVerbatim Reg.icscr.offset value s

/-- WRITE.OTHER (R150): "register file accepts and remembers arbitrary offsets". -/
def execWriteOther (off value : Nat) (s : State) : Host.Outcome State Fault Refusal :=
  writeVerbatim off value s

end Sys2Proof.Machine
end

