-- ==== Sys2Proof/Machine/WriteSpecial.lean ====
section
/-!
DEFINITION. The three WRITE sub-operations whose stored value differs from the value written: CR
(43_write_cr.md), CFGR (44_write_cfgr.md) and CRRCR (45_write_crrcr.md).
-/

namespace Sys2Proof.Machine

/-- WRITE.CR (R110): the ready bits follow the enable bits of the same value; `applySwsFromSw` does not
run (R113). -/
def execWriteCr (value : Nat) (s : State) : Host.Outcome State Fault Refusal :=
  writeWith crStore Reg.cr.offset value s

/-- WRITE.CFGR (R120): store the cut value verbatim, then run `applySwsFromSw` on what is stored now, so
that the hold case keeps the written bits 3:2 (R121, conflict C1). -/
def execWriteCfgr (value : Nat) (s : State) : Host.Outcome State Fault Refusal :=
  .next ((s.storeCell id Reg.cfgr.offset value).applySwsFromSw.respond .none)

/-- WRITE.CRRCR (R130): HSI48RDY follows HSI48ON of the same value. -/
def execWriteCrrcr (value : Nat) (s : State) : Host.Outcome State Fault Refusal :=
  writeWith crrcrStore Reg.crrcr.offset value s

end Sys2Proof.Machine
end

