-- ==== Sys2Proof/Machine/Dispatch.lean ====
section
/-!
DEFINITION. The dispatch: one arm per constructor of `Instr`, each one direct call of its meaning.
-/

namespace Sys2Proof.Machine

def exec (i : Instr) (s : State) : Host.Outcome State Fault Refusal :=
  match i with
  | .init => Sys2Proof.Machine.execInit s
  | .read off => Sys2Proof.Machine.execRead off s
  | .writeCr value => Sys2Proof.Machine.execWriteCr value s
  | .writeCfgr value => Sys2Proof.Machine.execWriteCfgr value s
  | .writeCrrcr value => Sys2Proof.Machine.execWriteCrrcr value s
  | .writePllcfgr value => Sys2Proof.Machine.execWritePllcfgr value s
  | .writeCier value => Sys2Proof.Machine.execWriteCier value s
  | .writeCifr value => Sys2Proof.Machine.execWriteCifr value s
  | .writeCicr value => Sys2Proof.Machine.execWriteCicr value s
  | .writeBdcr value => Sys2Proof.Machine.execWriteBdcr value s
  | .writeCsr value => Sys2Proof.Machine.execWriteCsr value s
  | .writeCcipr value => Sys2Proof.Machine.execWriteCcipr value s
  | .writeCcipr2 value => Sys2Proof.Machine.execWriteCcipr2 value s
  | .writeAhb1enr value => Sys2Proof.Machine.execWriteAhb1enr value s
  | .writeAhb2enr value => Sys2Proof.Machine.execWriteAhb2enr value s
  | .writeAhb3enr value => Sys2Proof.Machine.execWriteAhb3enr value s
  | .writeApb1enr1 value => Sys2Proof.Machine.execWriteApb1enr1 value s
  | .writeApb1enr2 value => Sys2Proof.Machine.execWriteApb1enr2 value s
  | .writeApb2enr value => Sys2Proof.Machine.execWriteApb2enr value s
  | .writeIcscr value => Sys2Proof.Machine.execWriteIcscr value s
  | .writeOther off value => Sys2Proof.Machine.execWriteOther off value s

end Sys2Proof.Machine
end

