-- ==== Sys2Proof/Machine/HostPort.lean ====
section
/-!
DEFINITION. The port between the host and the block: which request the host's next event puts to the
block (R65, R72, R80), and what is left of the event when the block has answered (R81).
-/

namespace Sys2Proof.Machine

/-- The request a bus access at `addr` stands for (R65): a 32-bit access at RCC_BASE + o is the request
`mk o`. Any other size has no request (R54, D5), and what the host does with an address outside the
window is not specified (R172). -/
def busRequest (addr nbytes : Nat) (mk : Nat → Req) : Except Refusal Req :=
  if nbytes ≠ 4 then .error (.accessSize nbytes)
  else if Config.rccBase ≤ addr ∧ addr < Config.rccBase + Config.rccWindow then
    .ok (mk (addr - Config.rccBase))
  else .error (.outsideWindow addr)

/-- The one request the host puts to the block for an event. -/
def HostEvent.request : HostEvent → Except Refusal Req
  | .word w =>
    match reqOfWord w with
    | .ok q => .ok q
    | .error (.kindNotRequest k) => .error (.kindNotRequest k)
  | .desc q => .ok q
  | .load addr nbytes => busRequest addr nbytes Req.read
  | .store addr nbytes value => busRequest addr nbytes fun o => .write o value
  | .rmw off _ _ => .ok (.read off)
  | .poll off _ _ => .ok (.read off)

/-- What the host does next on account of the same event, once the block has answered: an `RMW` goes on
with its WRITE, a `POLL` whose condition does not hold yet repeats itself (R81, R199). -/
def HostEvent.rest : HostEvent → Resp → List HostEvent
  | .rmw off clr set, .value t => [.desc (.write off (rmwValue t clr set).toNat)]
  | .poll off m want, .value t => if t &&& m = want then [] else [.poll off m want]
  | _, _ => []

/-- The host takes the answer: what is left of the event stands before what it was to do anyway. -/
def takeAnswer (e : HostEvent) (out : Host.Outcome State Fault Refusal) :
    Host.Outcome State Fault Refusal :=
  match out with
  | .next t => .next { t with host := HostEvent.rest e t.resp ++ t.host }
  | .fault f => .fault f
  | .refused r => .refused r

end Sys2Proof.Machine
end

