-- ==== Sys2Proof/Machine/Step.lean ====
section
/-!
DEFINITION. One step of the machine: the host's next event is put to the block as one request, the
request selects one operation, the operation runs whole (R5, R6, R60).
-/

namespace Sys2Proof.Machine

/-- One step. With nothing to ask, nothing happens: "between two requests no cell changes" (R5, R13;
log entry 9). A request that selects an operation always completes (R170); only an event that is no
request is refused (R54, R79, R172). -/
def step (s : State) : Host.Outcome State Fault Refusal :=
  match s.host with
  | [] => .next s
  | e :: later =>
    match HostEvent.request e with
    | .ok q => takeAnswer e (exec (dispatch q) { s with host := later })
    | .error r => .refused r

/-- The state with a request word placed as the host's next event, before whatever it was to ask: the
very next step runs the operation the word spells. -/
def State.withFetchWord (s : State) (nbits w : Nat) : State :=
  { s with host := .word (w % 2 ^ nbits) :: s.host }

end Sys2Proof.Machine
end

