-- ==== Sys2Proof/WellFormed.lean ====
section
/-!
DEFINITION. Which terms of `Instr` are operations of the table: the fallback row WRITE.OTHER never
carries a named offset (R76 order 5, R150); and which of them the 66-bit layout can carry (R72).
-/

namespace Sys2Proof

/-- An operation the two-stage decoding can select: WRITE.OTHER only at an offset that none of the 18
names takes (R76, R150). -/
def wellFormed : Instr → Bool
  | .writeOther off _ => !namedOffsets.contains off
  | .init => true
  | .read _ => true
  | .writeCr _ => true
  | .writeCfgr _ => true
  | .writeCrrcr _ => true
  | .writePllcfgr _ => true
  | .writeCier _ => true
  | .writeCifr _ => true
  | .writeCicr _ => true
  | .writeBdcr _ => true
  | .writeCsr _ => true
  | .writeCcipr _ => true
  | .writeCcipr2 _ => true
  | .writeAhb1enr _ => true
  | .writeAhb2enr _ => true
  | .writeAhb3enr _ => true
  | .writeApb1enr1 _ => true
  | .writeApb1enr2 _ => true
  | .writeApb2enr _ => true
  | .writeIcscr _ => true

/-- A request the 66-bit layout carries without loss: offset and value below 2^32 (R72). -/
def Req.fits66 : Req → Bool
  | .init => true
  | .read off => decide (off < 2 ^ 32)
  | .write off value => decide (off < 2 ^ 32) && decide (value < 2 ^ 32)

/-- An operation whose request the 66-bit layout carries without loss. -/
def fits66 (i : Instr) : Bool := (toReq i).fits66

end Sys2Proof
end

