-- ==== Sys2Proof/Safety.lean ====
section
/-!
DEFINITION. The terms claims are stated in: the invariants of every reachable state (10_state.md section
4, R165), a run of requests, what a plain store does to the state, the spec's closed forms, and the
register file as the total function of R10, written bit by bit beside the machine.
-/

namespace Sys2Proof

open Sys2Proof.Machine

/-! ### Invariants -/

/-- Each oscillator's ready bit in CR equals its enable bit (R40). -/
abbrev readyTracksEnable (s : State) : Prop :=
  (s.reg .cr).getLsbD 10 = (s.reg .cr).getLsbD 8 ∧
  (s.reg .cr).getLsbD 17 = (s.reg .cr).getLsbD 16 ∧
  (s.reg .cr).getLsbD 25 = (s.reg .cr).getLsbD 24

/-- HSI48RDY equals HSI48ON (R41). -/
abbrev hsi48TracksEnable (s : State) : Prop :=
  (s.reg .crrcr).getLsbD 1 = (s.reg .crrcr).getLsbD 0

/-- SW = 3 (MSI) implies SWS = 3 (R165). -/
abbrev msiHonoured (s : State) : Prop :=
  (s.reg .cfgr).extractLsb' 0 2 = 3#2 → (s.reg .cfgr).extractLsb' 2 2 = 3#2

/-- The invariants of every reachable state, with the canonical form of the register file. -/
abbrev StateInv (s : State) : Prop :=
  s.rf.Wf ∧ readyTracksEnable s ∧ hsi48TracksEnable s ∧ msiHonoured s

/-! ### Runs -/

/-- What a run of requests comes to, issued one at a time in order from a state (R60): as many steps of
the machine as there are requests, the host having nothing else to do. -/
def afterRequests (qs : List Req) (s : State) : Host.Outcome State Fault Refusal :=
  Host.Core.run Sys2Proof.core qs.length { s with host := qs.map HostEvent.desc }

/-- A request that may change the cell at an offset: INIT, or a WRITE at that very offset (R13, R64). -/
def Req.touches (o : Nat) : Req → Bool
  | .init => true
  | .read _ => false
  | .write p _ => p == o

/-- The trace line of a request (R185). -/
def traceOf : Req → TraceEvent
  | .init => .init
  | .read o => .read o
  | .write o v => .write o (BitVec.ofNat 32 v)

/-! ### What a store does -/

/-- The outcome is a next state in which the one cell at `o` has changed, to `w`: every other cell, and
what the host is to do, is as before; nothing is answered; one line is traced (R71, R105, R107). -/
def storesOnly (out : Host.Outcome State Fault Refusal) (s : State) (o : Nat) (w : Word)
    (line : TraceEvent) : Prop :=
  ∃ t, out = .next t ∧ t.cell o = w ∧ (∀ p, p ≠ o → t.cell p = s.cell p) ∧
    t.resp = .none ∧ t.trace = s.trace ++ [line] ∧ t.host = s.host

/-! ### The spec's closed forms -/

/-- The closed form of `cr_store` in R110. -/
def crStoreClosed (v : Word) : Word :=
  (v &&& ~~~0x02020400#32) ||| (((v &&& 0x01010100#32) <<< 1) &&& 0x02020000#32) |||
    ((v &&& 0x00000100#32) <<< 2)

/-- The closed form of `crrcr_store` in R130. -/
def crrcrStoreClosed (v : Word) : Word := (v &&& ~~~0x00000002#32) ||| ((v &&& 0x00000001#32) <<< 1)

/-- The clock sources and their ready flags in CR: row 1 to 4 of the decision table matches when SW
names the source and its flag is set; MSI is always ready (R39, R155). -/
def sourceReady (cr : Word) (sw : Nat) : Bool :=
  match sw with
  | 0 => cr.getLsbD 10
  | 1 => cr.getLsbD 17
  | 2 => cr.getLsbD 25
  | _ => true

/-- `cfgr_store(v, cr)` of R120 as one masked sum: bits 3:2 are SW when the selected source is ready,
the written bits otherwise. -/
def cfgrStoreClosed (v cr : Word) : Word :=
  if sourceReady cr (v.toNat % 4) then
    (v &&& ~~~0x0000000C#32) ||| ((v &&& 0x00000003#32) <<< 2)
  else v

/-! ### The register file as a total function -/

/-- The register file of R10 as a total function: bit `i` of the cell at offset `o`. -/
abbrev BitFile := Nat → Nat → Bool

/-- Power-on: every bit of every cell clear (R46). -/
def BitFile.powerOn : BitFile := fun _ _ => false

/-- The register file of a state, seen as that function. -/
def bitsOf (s : State) : BitFile := fun o i => (s.cell o).getLsbD i

/-- Whether a row 1 to 4 of the decision table matches for a CFGR write of `v` (R155). -/
def BitFile.honours (rf : BitFile) (v : Nat) : Bool :=
  match v % 4 with
  | 0 => rf 0x00 10
  | 1 => rf 0x00 17
  | 2 => rf 0x00 25
  | _ => true

/-- Which bit of the written value ends in bit `i` of the cell at `o`: the enable bit for a forced ready
bit of CR and CRRCR, SW for SWS when the switch is honoured, otherwise bit `i` itself (R105, R110,
R120, R130). -/
def BitFile.sourceBit (rf : BitFile) (o v i : Nat) : Nat :=
  if o = 0x00 then (if i = 10 then 8 else if i = 17 then 16 else if i = 25 then 24 else i)
  else if o = 0x08 then (if rf.honours v = true ∧ (i = 2 ∨ i = 3) then i - 2 else i)
  else if o = 0x98 then (if i = 1 then 0 else i)
  else i

/-- Bit `i` of what a WRITE of `v` at offset `o` stores; nothing from bit 32 up (R105, R109). -/
def storedBit (rf : BitFile) (o v i : Nat) : Bool :=
  decide (i < 32) && v.testBit (rf.sourceBit o v i)

/-- What a request does to the total function (R64, R90, R100, R105). -/
def BitFile.after (rf : BitFile) : Req → BitFile
  | .init => fun o i => decide (o = 0x00 ∧ (i = 8 ∨ i = 10))
  | .read _ => rf
  | .write o v => fun p i => if p = o then storedBit rf o v i else rf p i

end Sys2Proof
end

