-- ==== Sys2Proof/Certificates/Slice0/Obligations.lean ====
section
/-!
DEFINITION. The statements for the provers. Each docstring names the rules of spec/ it rests on.
-/

open Sys2Proof Sys2Proof.Machine

/-! ### Decoding and encoding -/

/-- Words written out from the layout of R72 (spec/95_test_vectors.md section 6). -/
def Obligations.WordsDecodeAsWritten : Prop :=
  decodeWord 0x0FFFFFFFFFFFFFFFF = .ok .init ∧
  decodeWord 0x112345678DEADBEEF = .ok (.read 0x12345678) ∧
  decodeWord 0x20000000000000100 = .ok (.writeCr 0x100) ∧
  decodeWord 0x20000000800000002 = .ok (.writeCfgr 2) ∧
  decodeWord 0x20000009800000001 = .ok (.writeCrrcr 1) ∧
  decodeWord 0x2000000A855555555 = .ok (.writeCcipr2 0x55555555) ∧
  decodeWord 0x20000000440000000 = .ok (.writeIcscr 0x40000000) ∧
  decodeWord 0x20000000900000000 = .ok (.writeOther 9 0) ∧
  decodeWord 0x30000000800000002 = .error (.kindNotRequest 3)

/-- Decode and encode agree on every operation the 66-bit layout carries (R72, R76, R82). -/
def Obligations.DecodeInvertsEncode : Prop :=
  ∀ i : Instr, wellFormed i = true → fits66 i = true →
    decodeWord (encode i) = .ok i ∧ encode i < 2 ^ 66

/-- The other direction: a word that decodes is the word of its operation, but for the fields the
operation ignores (R74): all below `kind` for INIT, the value field for READ, none for WRITE. -/
def Obligations.EncodeInvertsDecodeUpToIgnoredFields : Prop :=
  ∀ (w : Nat) (i : Instr), decodeWord w = .ok i →
    wellFormed i = true ∧ fits66 i = true ∧
    (wordKind w = 0 → encode i = 0) ∧
    (wordKind w = 1 → encode i = w - wordValue w) ∧
    (wordKind w = 2 → encode i = w)

/-- Every request selects exactly one operation, a well-formed one whose request it is (R76, R78). -/
def Obligations.RequestsSelectTheirOperation : Prop :=
  ∀ q : Req, wellFormed (dispatch q) = true ∧ toReq (dispatch q) = q

/-- The decoder agrees with the rows of spec/opcode_table.json tried in ascending priority, on every
66-bit word (R76, R77). -/
def Obligations.DecoderAgreesWithOpcodeTable : Prop :=
  ∀ w : BitVec 66, (selectRow w).map OpcodeRow.mnemonic =
    match decodeWord w.toNat with
    | .ok i => some i.mnemonic
    | .error _ => none

/-! ### The step -/

/-- A request word that decodes: one step is the operation's meaning, run with the word taken off what
the host is to do (R5, R6). -/
def Obligations.StepRunsDecodedWord : Prop :=
  ∀ (s : State) (w : Nat) (later : List HostEvent) (i : Instr),
    s.host = .word w :: later → decodeWord w = .ok i →
    step s = exec i { s with host := later }

/-- A request descriptor: one step is the meaning of the operation it selects (R5, R6, R70). -/
def Obligations.StepRunsRequestedOperation : Prop :=
  ∀ (s : State) (q : Req) (later : List HostEvent),
    s.host = .desc q :: later → step s = exec (dispatch q) { s with host := later }

/-- The model's choice (log entry 12): a word placed by `withFetchWord` stands as the host's next event,
and the very next step runs the operation it decodes to; that the word is first cut to its low `nbits`
bits is log entry 8. No rule of the spec says how a program comes to run. -/
def Obligations.FetchWordRunsNext : Prop :=
  ∀ (s : State) (nbits w : Nat) (i : Instr),
    decodeTableWord nbits w = some i → step (s.withFetchWord nbits w) = exec i s

/-- The model's choice (log entry 9, from R5 and R13): a step with no request pending changes
nothing. -/
def Obligations.StepWithoutRequestChangesNothing : Prop :=
  ∀ s : State, s.host = [] → step s = .next s

/-- A word of kind 3 is refused, and a longer number too, with its kind named (R79, D12; log
entry 8). -/
def Obligations.KindThreeIsRefused : Prop :=
  ∀ (s : State) (w : Nat) (later : List HostEvent),
    s.host = .word w :: later → 3 ≤ wordKind w →
    step s = .refused (.kindNotRequest (wordKind w))

/-- A bus access of other than four bytes has no request and is refused (R54, the spec's decision D5; log
entry 13). -/
def Obligations.OtherAccessSizesAreRefused : Prop :=
  ∀ (s : State) (addr n value : Nat) (later : List HostEvent), n ≠ 4 →
    (s.host = .load addr n :: later → step s = .refused (.accessSize n)) ∧
    (s.host = .store addr n value :: later → step s = .refused (.accessSize n))

/-- Seen from the host's processor, a 32-bit load from RCC_BASE + o is READ(o) and a 32-bit store is
WRITE(o, v), inside the window; no access is INIT (R65; the window is log entry 5). -/
def Obligations.BusAccessIsReadOrWrite : Prop :=
  (∀ (s : State) (o value : Nat) (later : List HostEvent), o < Config.rccWindow →
    (s.host = .load (Config.rccBase + o) 4 :: later →
      step s = step { s with host := .desc (.read o) :: later }) ∧
    (s.host = .store (Config.rccBase + o) 4 value :: later →
      step s = step { s with host := .desc (.write o value) :: later })) ∧
  (∀ addr n value : Nat, HostEvent.request (.load addr n) ≠ .ok .init ∧
    HostEvent.request (.store addr n value) ≠ .ok .init)

/-! ### INIT and READ -/

/-- INIT (R90, R91): whatever the state before, CR = 0x00000500 and every other cell 0; the end state
does not depend on the start state. That the unnamed cells are zeroed too is the spec's decision D9 (log
entry 10). -/
def Obligations.InitEndState : Prop :=
  ∀ s : State, ∃ t : State, exec .init s = .next t ∧
    t.cell 0x00 = 0x00000500#32 ∧ t.cell 0x08 = 0x00000000#32 ∧ (∀ o, o ≠ 0x00 → t.cell o = 0) ∧
    t.rf = State.reset.rf ∧ t.resp = .none ∧ t.trace = s.trace ++ [.init] ∧ t.host = s.host ∧
    ∃ u : State, exec .init t = .next u ∧ u.rf = t.rf

/-- The reset state is what INIT makes of the power-on state, where every cell is 0 (R45, R46, R191);
that the trace already holds INIT's line is the model's choice (log entry 2). -/
def Obligations.ResetIsInitAtPowerOn : Prop :=
  exec .init State.powerOn = .next State.reset ∧ ∀ o, State.powerOn.cell o = 0

/-- READ (R100): selected by kind 1 with the offset in REQ[63:32], the value field ignored; answers the
cell, 0 if it was never written; the register file is unchanged. -/
def Obligations.ReadAnswersTheCell : Prop :=
  (∀ o v : Nat, o < 2 ^ 32 → v < 2 ^ 32 → decodeWord (1 * 2 ^ 64 + o * 2 ^ 32 + v) = .ok (.read o)) ∧
  ∀ (o : Nat) (s : State), dispatch (.read o) = .read o ∧
    ∃ t : State, exec (.read o) s = .next t ∧ t.resp = .value (s.cell o) ∧ t.rf = s.rf ∧
      ((∀ c ∈ s.rf, c.1 ≠ o) → t.resp = .value 0) ∧
      t.trace = s.trace ++ [.read o] ∧ t.host = s.host

/-! ### The WRITEs whose stored value differs from the written one -/

/-- WRITE.CR (R110): the one cell at 0x00 takes the closed form of `cr_store` of the cut value. -/
def Obligations.WriteCrStoresForcedReadyBits : Prop :=
  ∀ (v : Nat) (s : State), dispatch (.write 0x00 v) = .writeCr v ∧
    storesOnly (exec (.writeCr v) s) s 0x00 (crStoreClosed (BitVec.ofNat 32 v))
      (.write 0x00 (BitVec.ofNat 32 v))

/-- The ready bits of the value written to CR are discarded and each follows its enable bit; the other
26 bits are stored as written (R111, R112). -/
def Obligations.CrReadyBitsFollowEnableBits : Prop :=
  ∀ (v : Nat) (s : State), ∃ t : State, exec (.writeCr v) s = .next t ∧
    (t.cell 0x00).getLsbD 10 = v.testBit 8 ∧ (t.cell 0x00).getLsbD 17 = v.testBit 16 ∧
    (t.cell 0x00).getLsbD 25 = v.testBit 24 ∧
    (∀ i, i < 32 → i ≠ 10 → i ≠ 17 → i ≠ 25 → (t.cell 0x00).getLsbD i = v.testBit i) ∧
    ∀ v' : Nat, (∀ i, i < 32 → i ≠ 10 → i ≠ 17 → i ≠ 25 → v'.testBit i = v.testBit i) →
      ∃ t' : State, exec (.writeCr v') s = .next t' ∧ t'.cell 0x00 = t.cell 0x00

/-- WRITE.CFGR (R120): the one cell at 0x08 takes `cfgr_store` of the cut value and of CR, whatever CFGR
held before. The hold case, where the written bits 3:2 stay, is the spec's choice in conflict C1 (log
entry 7). -/
def Obligations.WriteCfgrStoresRecomputedSws : Prop :=
  ∀ (v : Nat) (s : State), dispatch (.write 0x08 v) = .writeCfgr v ∧
    storesOnly (exec (.writeCfgr v) s) s 0x08 (cfgrStoreClosed (BitVec.ofNat 32 v) (s.cell 0x00))
      (.write 0x08 (BitVec.ofNat 32 v))

/-- MSI is always selectable (R124): a CFGR write with SW = 3 leaves CFGR bits 3:0 at 0xF, whatever CR
holds. -/
def Obligations.MsiIsAlwaysSelectable : Prop :=
  ∀ (v : Nat) (s : State), v % 4 = 3 → ∃ t : State, exec (.writeCfgr v) s = .next t ∧
    (t.cell 0x08).extractLsb' 0 4 = 0xF#4

/-- The transition table of SWS and SW (R162): INIT, the three kinds of CFGR write, and every other
operation, which leaves CFGR alone. The row of the hold case is the spec's choice in conflict C1 (log
entry 7). -/
def Obligations.SwsTransitionTable : Prop :=
  ∀ (i : Instr) (s : State), wellFormed i = true → ∃ t : State, exec i s = .next t ∧
    match i with
    | .init => (t.cell 0x08).extractLsb' 2 2 = 0#2 ∧ (t.cell 0x08).extractLsb' 0 2 = 0#2
    | .writeCfgr v =>
      (t.cell 0x08).extractLsb' 0 2 = BitVec.ofNat 2 v ∧
      (t.cell 0x08).extractLsb' 2 2 =
        if v % 4 = 3 then 3#2
        else if v % 4 = 0 ∧ (s.cell 0x00).getLsbD 10 = true then 0#2
        else if v % 4 = 1 ∧ (s.cell 0x00).getLsbD 17 = true then 1#2
        else if v % 4 = 2 ∧ (s.cell 0x00).getLsbD 25 = true then 2#2
        else BitVec.ofNat 2 (v / 4)
    | _ => t.cell 0x08 = s.cell 0x08

/-- WRITE.CRRCR (R130): the one cell at 0x98 takes the closed form of `crrcr_store` of the cut value. -/
def Obligations.WriteCrrcrStoresForcedReadyBit : Prop :=
  ∀ (v : Nat) (s : State), dispatch (.write 0x98 v) = .writeCrrcr v ∧
    storesOnly (exec (.writeCrrcr v) s) s 0x98 (crrcrStoreClosed (BitVec.ofNat 32 v))
      (.write 0x98 (BitVec.ofNat 32 v))

/-- `applySwsFromSw`: it changes at most bits 3:2 of CFGR, and nothing at all when the source SW names is
not ready (R158); running it twice is running it once, which the spec derives from R155 (R159); it has no
result and no trace (R155). -/
def Obligations.ApplySwsChangesOnlySws : Prop :=
  ∀ s : State, (∀ o, o ≠ 0x08 → s.applySwsFromSw.cell o = s.cell o) ∧
    (∀ i, i ≠ 2 → i ≠ 3 → (s.applySwsFromSw.cell 0x08).getLsbD i = (s.cell 0x08).getLsbD i) ∧
    (sourceReady (s.cell 0x00) ((s.cell 0x08).toNat % 4) = false →
      ∀ o, s.applySwsFromSw.cell o = s.cell o) ∧
    s.applySwsFromSw.applySwsFromSw = s.applySwsFromSw ∧
    s.applySwsFromSw.resp = s.resp ∧ s.applySwsFromSw.trace = s.trace

/-! ### The WRITEs that store the cut value and do nothing else -/

/-- WRITE.PLLCFGR, CIER, CIFR and CICR (R135 to R138). -/
def Obligations.ClockAndInterruptWritesStoreVerbatim : Prop :=
  ∀ (v : Nat) (s : State),
    (dispatch (.write 0x0C v) = .writePllcfgr v ∧ storesOnly (exec (.writePllcfgr v) s) s 0x0C
      (BitVec.ofNat 32 v) (.write 0x0C (BitVec.ofNat 32 v))) ∧
    (dispatch (.write 0x18 v) = .writeCier v ∧ storesOnly (exec (.writeCier v) s) s 0x18
      (BitVec.ofNat 32 v) (.write 0x18 (BitVec.ofNat 32 v))) ∧
    (dispatch (.write 0x1C v) = .writeCifr v ∧ storesOnly (exec (.writeCifr v) s) s 0x1C
      (BitVec.ofNat 32 v) (.write 0x1C (BitVec.ofNat 32 v))) ∧
    (dispatch (.write 0x20 v) = .writeCicr v ∧ storesOnly (exec (.writeCicr v) s) s 0x20
      (BitVec.ofNat 32 v) (.write 0x20 (BitVec.ofNat 32 v)))

/-- WRITE.BDCR, CSR, CCIPR and CCIPR2 (R139 to R142). -/
def Obligations.DomainAndSelectionWritesStoreVerbatim : Prop :=
  ∀ (v : Nat) (s : State),
    (dispatch (.write 0x90 v) = .writeBdcr v ∧ storesOnly (exec (.writeBdcr v) s) s 0x90
      (BitVec.ofNat 32 v) (.write 0x90 (BitVec.ofNat 32 v))) ∧
    (dispatch (.write 0x94 v) = .writeCsr v ∧ storesOnly (exec (.writeCsr v) s) s 0x94
      (BitVec.ofNat 32 v) (.write 0x94 (BitVec.ofNat 32 v))) ∧
    (dispatch (.write 0x88 v) = .writeCcipr v ∧ storesOnly (exec (.writeCcipr v) s) s 0x88
      (BitVec.ofNat 32 v) (.write 0x88 (BitVec.ofNat 32 v))) ∧
    (dispatch (.write 0xA8 v) = .writeCcipr2 v ∧ storesOnly (exec (.writeCcipr2 v) s) s 0xA8
      (BitVec.ofNat 32 v) (.write 0xA8 (BitVec.ofNat 32 v)))

/-- WRITE to the six enable registers (R143 to R148). -/
def Obligations.EnableWritesStoreVerbatim : Prop :=
  ∀ (v : Nat) (s : State),
    (dispatch (.write 0x48 v) = .writeAhb1enr v ∧ storesOnly (exec (.writeAhb1enr v) s) s 0x48
      (BitVec.ofNat 32 v) (.write 0x48 (BitVec.ofNat 32 v))) ∧
    (dispatch (.write 0x4C v) = .writeAhb2enr v ∧ storesOnly (exec (.writeAhb2enr v) s) s 0x4C
      (BitVec.ofNat 32 v) (.write 0x4C (BitVec.ofNat 32 v))) ∧
    (dispatch (.write 0x50 v) = .writeAhb3enr v ∧ storesOnly (exec (.writeAhb3enr v) s) s 0x50
      (BitVec.ofNat 32 v) (.write 0x50 (BitVec.ofNat 32 v))) ∧
    (dispatch (.write 0x58 v) = .writeApb1enr1 v ∧ storesOnly (exec (.writeApb1enr1 v) s) s 0x58
      (BitVec.ofNat 32 v) (.write 0x58 (BitVec.ofNat 32 v))) ∧
    (dispatch (.write 0x5C v) = .writeApb1enr2 v ∧ storesOnly (exec (.writeApb1enr2 v) s) s 0x5C
      (BitVec.ofNat 32 v) (.write 0x5C (BitVec.ofNat 32 v))) ∧
    (dispatch (.write 0x60 v) = .writeApb2enr v ∧ storesOnly (exec (.writeApb2enr v) s) s 0x60
      (BitVec.ofNat 32 v) (.write 0x60 (BitVec.ofNat 32 v)))

/-- WRITE.ICSCR and WRITE.OTHER (R149, R150): write rule 5 selects ICSCR's row at 0x04 and the fallback
at every offset that is none of the 18 named ones; both store the cut value and nothing else. -/
def Obligations.FallbackWritesStoreVerbatim : Prop :=
  ∀ (o v : Nat) (s : State),
    (dispatch (.write 0x04 v) = .writeIcscr v ∧ storesOnly (exec (.writeIcscr v) s) s 0x04
      (BitVec.ofNat 32 v) (.write 0x04 (BitVec.ofNat 32 v))) ∧
    (dispatch (.write o v) = .writeOther o v ↔ ∀ r ∈ Reg.all, o ≠ r.offset) ∧
    storesOnly (exec (.writeOther o v) s) s o
      (BitVec.ofNat 32 v) (.write o (BitVec.ofNat 32 v))

/-- An offset that is not a multiple of 4 is a cell of its own: its WRITE is the fallback's, and the
cells beside it, CR and CFGR among them, are unchanged (R55, R56). -/
def Obligations.MisalignedOffsetIsItsOwnCell : Prop :=
  ∀ (o v : Nat) (s : State), o % 4 ≠ 0 → dispatch (.write o v) = .writeOther o v ∧
    ∃ t : State, exec (dispatch (.write o v)) s = .next t ∧ t.cell o = BitVec.ofNat 32 v ∧
      ∀ p, p ≠ o → t.cell p = s.cell p

/-! ### All operations -/

/-- Every operation is defined for every input: none faults, none is refused (R78, R170). -/
def Obligations.EveryOperationCompletes : Prop :=
  ∀ (i : Instr) (s : State), ∃ t : State, exec i s = .next t

/-- The frame rule (R64): READ leaves the register file unchanged, a WRITE changes at most its own cell,
INIT sets every cell to its reset value, the unnamed ones by the spec's decision D9 (log entry 10). -/
def Obligations.FrameOfEveryRequest : Prop :=
  ∀ (q : Req) (s t : State), exec (dispatch q) s = .next t →
    match q with
    | .init => ∀ p, t.cell p = State.reset.cell p
    | .read _ => t.rf = s.rf
    | .write o _ => ∀ p, p ≠ o → t.cell p = s.cell p

/-- CFGR changes only inside an INIT or a WRITE whose offset is CFGR (R42). -/
def Obligations.CfgrChangesOnlyByInitOrCfgrWrite : Prop :=
  ∀ (i : Instr) (s t : State), wellFormed i = true → exec i s = .next t →
    t.cell 0x08 ≠ s.cell 0x08 → i = .init ∨ ∃ v, i = .writeCfgr v

/-- The value of a WRITE is cut to its low 32 bits before any processing: wider values are the same
WRITE (R75, R109). -/
def Obligations.WideValuesAreCutFirst : Prop :=
  ∀ (o v : Nat) (s : State),
    exec (dispatch (.write o v)) s = exec (dispatch (.write o (v % 2 ^ 32))) s

/-- A WRITE of a signed host word of 32 bits or more is, at every offset, the WRITE of its low 32 bits,
two's complement; where no store rule transforms the value the cell takes exactly these bits; and minus
one is stored as 0xFFFFFFFF at every offset, CR, CFGR and CRRCR among them (the spec's decision D3; log
entry 4). -/
def Obligations.SignedHostWordsAreTakenBitForBit : Prop :=
  ∀ (o width : Nat) (s : State), 32 ≤ width →
    (∀ x : Int, exec (dispatch (.write o (signedHostWord width x))) s =
      exec (dispatch (.write o (BitVec.ofInt 32 x).toNat)) s) ∧
    (o ≠ 0x00 → o ≠ 0x08 → o ≠ 0x98 → ∀ x : Int, ∃ t : State,
      exec (dispatch (.write o (signedHostWord width x))) s = .next t ∧
      t.cell o = BitVec.ofInt 32 x) ∧
    ∃ t : State, exec (dispatch (.write o (signedHostWord width (-1)))) s = .next t ∧
      t.cell o = 0xFFFFFFFF#32

/-- Every WRITE is idempotent: issued twice in a row it leaves the same register file as once (R58). -/
def Obligations.WritesAreIdempotent : Prop :=
  ∀ (o v : Nat) (s t u : State), exec (dispatch (.write o v)) s = .next t →
    exec (dispatch (.write o v)) t = .next u → u.rf = t.rf

/-! ### Runs of requests -/

/-- Read-your-write (R151): at every offset but CR, CFGR and CRRCR, a READ right after a WRITE answers the
written value cut to 32 bits. -/
def Obligations.ReadYourWrite : Prop :=
  ∀ (o v : Nat) (s : State), o ≠ 0x00 → o ≠ 0x08 → o ≠ 0x98 → ∃ t : State,
    afterRequests [.write o v, .read o] s = .next t ∧ t.resp = .value (BitVec.ofNat 32 v)

/-- At the three specially interpreted offsets a READ right after a WRITE answers the transformed value
(R61); at CFGR the hold case is the spec's choice in conflict C1 (log entry 7). -/
def Obligations.ReadYourTransformedWrite : Prop :=
  ∀ (v : Nat) (s : State),
    (∃ t : State, afterRequests [.write 0x00 v, .read 0x00] s = .next t ∧
      t.resp = .value (crStoreClosed (BitVec.ofNat 32 v))) ∧
    (∃ t : State, afterRequests [.write 0x08 v, .read 0x08] s = .next t ∧
      t.resp = .value (cfgrStoreClosed (BitVec.ofNat 32 v) (s.cell 0x00))) ∧
    (∃ t : State, afterRequests [.write 0x98 v, .read 0x98] s = .next t ∧
      t.resp = .value (crrcrStoreClosed (BitVec.ofNat 32 v)))

/-- A cell keeps its value through any run of requests that holds no INIT and no WRITE at its offset, and
a READ at the end answers that value (R13, R60, R101). -/
def Obligations.UntouchedCellIsReadBack : Prop :=
  ∀ (qs : List Req) (o : Nat) (s : State), (∀ q ∈ qs, q.touches o = false) →
    ∃ t : State, afterRequests (qs ++ [.read o]) s = .next t ∧ t.resp = .value (s.cell o) ∧
      t.cell o = s.cell o

/-- The machine refines the register file as a total function (R10, R11, R60): after any run of requests
from any state, every bit of every cell is what the bit-by-bit reading of the rules gives. INIT of unnamed
cells and the hold case follow the spec's choices C4 and C1 (log entries 10 and 7). -/
def Obligations.RunsRefineTheTotalRegisterFile : Prop :=
  ∀ (qs : List Req) (s : State), ∃ t : State, afterRequests qs s = .next t ∧
    bitsOf t = qs.foldl BitFile.after (bitsOf s)

/-- One trace line per operation, in the order of the requests (R184, R185, D13). -/
def Obligations.OneTraceLinePerRequest : Prop :=
  ∀ (qs : List Req) (s : State), ∃ t : State, afterRequests qs s = .next t ∧
    t.trace = s.trace ++ qs.map traceOf

/-- INIT's trace line reads exactly as R185 gives it. -/
def Obligations.InitTraceText : Prop :=
  ∀ n : Nat, TraceEvent.text n .init = "RCC: init done (HSI ready, SWS=HSI)"

/-- A cell depends on nothing but itself and CR: two states that agree on CR and on one cell still agree
on that cell and on CR after the same requests, whatever the other cells hold (R19, R107, R174,
R202). -/
def Obligations.CellsDependOnlyOnThemselvesAndCr : Prop :=
  ∀ (qs : List Req) (o : Nat) (s s' : State), s.cell 0x00 = s'.cell 0x00 → s.cell o = s'.cell o →
    ∃ t t' : State, afterRequests qs s = .next t ∧ afterRequests qs s' = .next t' ∧
      t.cell 0x00 = t'.cell 0x00 ∧ t.cell o = t'.cell o

/-- A source made ready after it was selected does not take over (R163, R195): with SW = `sw` and the
ready bit clear, a CFGR write holds the written SWS bits, the CR write that sets the enable bit leaves
CFGR as it is, and writing CFGR again makes the switch. The hold case is conflict C1 (log entry 7). -/
def Obligations.LateReadyNeedsAnotherCfgrWrite : Prop :=
  ∀ (sw v w : Nat) (s : State), sw < 3 → v % 4 = sw →
    sourceReady (s.cell 0x00) sw = false →
    w.testBit (if sw = 0 then 8 else if sw = 1 then 16 else 24) = true →
    ∃ t u : State, afterRequests [.write 0x08 v, .write 0x00 w] s = .next t ∧
      t.cell 0x08 = BitVec.ofNat 32 v ∧ sourceReady (t.cell 0x00) sw = true ∧
      afterRequests [.write 0x08 v] t = .next u ∧
      (u.cell 0x08).extractLsb' 2 2 = BitVec.ofNat 2 sw

/-- A poll ends at its first READ or never ends (R81, R199): if its condition holds it is gone after one
step; if not, it is still there after any number of steps, the register file unchanged. That a poll is one
event which repeats itself is the model's choice (log entry 16). -/
def Obligations.PollEndsAtOnceOrNever : Prop :=
  ∀ (s : State) (o : Nat) (m want : Word) (later : List HostEvent),
    s.host = .poll o m want :: later →
    (s.cell o &&& m = want → ∃ t : State, step s = .next t ∧ t.host = later ∧ t.rf = s.rf ∧
      t.resp = .value (s.cell o)) ∧
    (s.cell o &&& m ≠ want → ∀ k : Nat, ∃ t : State, Host.Core.run Sys2Proof.core k s = .next t ∧
      t.host = s.host ∧ t.rf = s.rf)

/-- `RMW o, clr, set` is a READ and then the WRITE of the value read with `clr` cleared and `set` set
(R81): two steps, after which the host goes on, the cell holds what that WRITE stores and every other
cell is unchanged. That it is one event of two steps is the model's choice (log entry 16). At CFGR, with
the source not ready, what the WRITE stores keeps the written bits 3:2: the spec's choice in conflict C1
(log entry 7). -/
def Obligations.ReadModifyWriteIsReadThenWrite : Prop :=
  ∀ (s : State) (o : Nat) (clr set : Word) (later : List HostEvent),
    s.host = .rmw o clr set :: later → ∃ t u : State,
      step s = .next t ∧ t.rf = s.rf ∧ t.resp = .value (s.cell o) ∧
      step t = .next u ∧ u.host = later ∧ u.resp = .none ∧
      (∀ p, p ≠ o → u.cell p = s.cell p) ∧
      ∀ i, (u.cell o).getLsbD i =
        storedBit (bitsOf s) o ((s.cell o &&& ~~~clr) ||| set).toNat i

/-! ### Invariants -/

/-- The reset state and the power-on state meet the invariants. -/
def Obligations.StartStatesMeetInvariants : Prop :=
  StateInv State.reset ∧ StateInv State.powerOn

/-- Every step keeps the invariants (R40, R41, R165) and the canonical form of the register file, from
every state that meets them, reachable or not. -/
def Obligations.StepKeepsInvariants : Prop :=
  ∀ s t : State, StateInv s → step s = .next t → StateInv t

/-- In every state reachable from power-on, whatever the host asks, each ready bit equals its enable bit
and SW = 3 implies SWS = 3, as the spec derives (R40, R41, R165): what `StepKeepsInvariants` says, along
runs. That a run goes on when the host has nothing more to ask, and what RMW and POLL leave on its list,
are the model's choices (log entries 9 and 16). -/
def Obligations.ReachableStatesMeetInvariants : Prop :=
  ∀ (k : Nat) (plan : List HostEvent) (t : State),
    Host.Core.run Sys2Proof.core k { State.powerOn with host := plan } = .next t →
    readyTracksEnable t ∧ hsi48TracksEnable t ∧ msiHonoured t

/-- No such implication holds for the other sources: every combination of SW in 0, 1, 2, of SWS and of
the three ready bits is reachable from power-on (R165). -/
def Obligations.EverySwsCombinationIsReachable : Prop :=
  ∀ (sw sws : BitVec 2) (hsi hse pll : Bool), sw ≠ 3#2 → ∃ (qs : List Req) (t : State),
    afterRequests qs State.powerOn = .next t ∧ (t.cell 0x08).extractLsb' 0 2 = sw ∧
    (t.cell 0x08).extractLsb' 2 2 = sws ∧ (t.cell 0x00).getLsbD 10 = hsi ∧
    (t.cell 0x00).getLsbD 17 = hse ∧ (t.cell 0x00).getLsbD 25 = pll

/-- Whether a cell is listed with 0 or absent cannot be seen, and the canonical form settles it: two
canonical register files that read the same everywhere are the same data (R10, R11). -/
def Obligations.CanonicalRegisterFilesAreEqualWhenReadsAgree : Prop :=
  ∀ a b : RegFile, a.Wf → b.Wf → (∀ o, a.get o = b.get o) → a = b

/-- A host that asks only what spells a request is never refused and never faulted, for any number of
steps. That no request is refused is R170. That a step with no request pending is a step at all, so that
the run goes on once the host's list is used up, is the model's choice (log entry 9), and so is what RMW
and POLL leave on the list (log entry 16). -/
def Obligations.RequestsAreNeverRefused : Prop :=
  ∀ (k : Nat) (s : State), (∀ e ∈ s.host, ∃ q, HostEvent.request e = .ok q) →
    ∃ t : State, Host.Core.run Sys2Proof.core k s = .next t
end

