-- ==== Sys2Proof/Laws/Bits.lean ====
section
/-!
SUPPORT. The bits of the field operations: what each of them leaves in every bit of the word.
-/

namespace Sys2Proof.Machine

theorem mask32_bit (v i : Nat) : (mask32 v).getLsbD i = (decide (i < 32) && v.testBit i) := by
  simp [mask32, BitVec.getLsbD_ofNat]

theorem mask32_toNat (v : Nat) : (mask32 v).toNat = v % 2 ^ 32 := by
  simp [mask32]

/-- A signed host word wide enough is cut to the integer's low 32 bits, two's complement (R75, D3). -/
theorem mask32_signedHostWord {width : Nat} (h : 32 ≤ width) (x : Int) :
    mask32 (signedHostWord width x) = BitVec.ofInt 32 x := by
  apply BitVec.eq_of_toNat_eq
  rw [mask32_toNat, signedHostWord, BitVec.toNat_ofInt, BitVec.toNat_ofInt]
  have hd : ((2 ^ 32 : Nat) : Int) ∣ ((2 ^ width : Nat) : Int) := by
    exact_mod_cast pow_dvd_pow 2 h
  have h0 : 0 ≤ x % ((2 ^ width : Nat) : Int) := Int.emod_nonneg _ (by positivity)
  rw [← Int.emod_emod_of_dvd x hd]
  omega

/-- `insert(v, hi, lo, f)` bit by bit: the bits of `f` from `lo` to `hi`, the bits of `v` elsewhere. -/
theorem insertBits_bit (v f : Word) (hi lo i : Nat) (h : lo ≤ hi) (hf : f.toNat < 2 ^ (hi - lo + 1)) :
    (insertBits v hi lo f).getLsbD i =
      if lo ≤ i ∧ i ≤ hi ∧ i < 32 then f.getLsbD (i - lo) else v.getLsbD i := by
  unfold insertBits
  by_cases h32 : i < 32
  · simp only [BitVec.getLsbD_or, BitVec.getLsbD_and, BitVec.getLsbD_not, BitVec.getLsbD_shiftLeft,
      BitVec.getLsbD_ofNat, Nat.testBit_two_pow_sub_one, h32, decide_true, Bool.true_and]
    by_cases hlo : i < lo
    · have : ¬ lo ≤ i := by omega
      simp [hlo, this]
    · have hle : lo ≤ i := by omega
      by_cases hhi : i ≤ hi
      · have h1 : i - lo < 32 := by omega
        have h2 : i - lo < hi - lo + 1 := by omega
        simp [hlo, hle, hhi, h1, h2]
      · have h2 : ¬ i - lo < hi - lo + 1 := by omega
        have hz : f.getLsbD (i - lo) = false := by
          have hle' : 2 ^ (hi - lo + 1) ≤ 2 ^ (i - lo) :=
            Nat.pow_le_pow_right (by norm_num) (by omega)
          exact Nat.testBit_lt_two_pow (lt_of_lt_of_le hf hle')
        simp [hlo, hle, hhi, h2, hz]
  · have h1 : ∀ x : Word, x.getLsbD i = false := fun x => BitVec.getLsbD_of_ge x i (by omega)
    simp [h32, h1]

theorem insertBit_bit (v : Word) (k i : Nat) (b : Bool) (hk : k < 32) :
    (insertBit v k b).getLsbD i = if i = k then b else v.getLsbD i := by
  unfold insertBit
  rw [insertBits_bit _ _ _ _ _ (le_refl k) (by cases b <;> simp)]
  by_cases h : i = k
  · subst h
    cases b <;> simp [hk]
  · have : ¬ (k ≤ i ∧ i ≤ k ∧ i < 32) := by omega
    simp [h, this]

/-- `cr_store` bit by bit (R110). -/
theorem crStore_bit (v : Word) (i : Nat) :
    (crStore v).getLsbD i =
      if i = 25 then v.getLsbD 24 else if i = 17 then v.getLsbD 16
      else if i = 10 then v.getLsbD 8 else v.getLsbD i := by
  simp only [crStore, bit, hsionBit, hsirdyBit, hseonBit, hserdyBit, pllonBit, pllrdyBit]
  rw [insertBit_bit _ _ _ _ (by norm_num), insertBit_bit _ _ _ _ (by norm_num),
    insertBit_bit _ _ _ _ (by norm_num)]

/-- `crrcr_store` bit by bit (R130). -/
theorem crrcrStore_bit (v : Word) (i : Nat) :
    (crrcrStore v).getLsbD i = if i = 1 then v.getLsbD 0 else v.getLsbD i := by
  simp only [crrcrStore, bit, hsi48onBit, hsi48rdyBit]
  rw [insertBit_bit _ _ _ _ (by norm_num)]

/-- A CFGR value with SWS replaced, bit by bit (R155). -/
theorem withSws_bit (c : Word) (sws : BitVec 2) (i : Nat) :
    (withSws c sws).getLsbD i =
      if i = 2 then sws.getLsbD 0 else if i = 3 then sws.getLsbD 1 else c.getLsbD i := by
  unfold withSws swsHi swsLo
  rw [insertBits_bit _ _ _ _ _ (by norm_num) (by
    have := sws.isLt
    simp only [BitVec.toNat_setWidth]
    omega)]
  by_cases h2 : i = 2
  · subst h2; simp
  · by_cases h3 : i = 3
    · subst h3; simp
    · have : ¬ (2 ≤ i ∧ i ≤ 3 ∧ i < 32) := by omega
      simp [h2, h3, this]

theorem field2_bit (v : Word) (lo i : Nat) :
    (field2 v lo).getLsbD i = (decide (i < 2) && v.getLsbD (lo + i)) := by
  simp [field2, BitVec.getLsbD_extractLsb']

theorem swOf_bit (c : Word) (i : Nat) :
    (swOf c).getLsbD i = (decide (i < 2) && c.getLsbD i) := by
  simp only [swOf, field2_bit, swLo, Nat.zero_add]

theorem swsOf_bit (c : Word) (i : Nat) :
    (swsOf c).getLsbD i = (decide (i < 2) && c.getLsbD (2 + i)) := by
  simp only [swsOf, field2_bit, swsLo]

theorem swOf_toNat (c : Word) : (swOf c).toNat = c.toNat % 4 := by
  simp [swOf, field2, swLo, BitVec.extractLsb'_toNat]

/-- An `RMW` composes the two helper shapes of R81. -/
theorem rmwValue_eq (t clr set : Word) :
    rmwValue t clr set = withBits (withBits t clr false) set true := rfl

/-- A bit set by the helper tests as set, when the mask has one (R81). -/
theorem anySet_withBits (t m : Word) (h : m ≠ 0) : anySet (withBits t m true) m = true := by
  have : (t ||| m) &&& m = m := by
    apply BitVec.eq_of_getLsbD_eq
    intro i _
    simp only [BitVec.getLsbD_and, BitVec.getLsbD_or]
    cases t.getLsbD i <;> cases m.getLsbD i <;> rfl
  simpa [anySet, withBits, this] using h

theorem bv2_cases (x : BitVec 2) : x = 0 ∨ x = 1 ∨ x = 2 ∨ x = 3 := by
  revert x
  decide

end Sys2Proof.Machine
end

