-- ==== Sys2Proof/Laws/Decode.lean ====
section
/-!
SUPPORT. What each function of the decoder answers, said once: the request of a word by its kind, the
fields of a word put together, and the operation of a WRITE by its offset.
-/

namespace Sys2Proof

/-! ### The address map, one lemma per register (R14) -/

@[simp] theorem offset_cr : Reg.offset .cr = 0x00 := rfl
@[simp] theorem offset_icscr : Reg.offset .icscr = 0x04 := rfl
@[simp] theorem offset_cfgr : Reg.offset .cfgr = 0x08 := rfl
@[simp] theorem offset_pllcfgr : Reg.offset .pllcfgr = 0x0C := rfl
@[simp] theorem offset_cier : Reg.offset .cier = 0x18 := rfl
@[simp] theorem offset_cifr : Reg.offset .cifr = 0x1C := rfl
@[simp] theorem offset_cicr : Reg.offset .cicr = 0x20 := rfl
@[simp] theorem offset_ahb1enr : Reg.offset .ahb1enr = 0x48 := rfl
@[simp] theorem offset_ahb2enr : Reg.offset .ahb2enr = 0x4C := rfl
@[simp] theorem offset_ahb3enr : Reg.offset .ahb3enr = 0x50 := rfl
@[simp] theorem offset_apb1enr1 : Reg.offset .apb1enr1 = 0x58 := rfl
@[simp] theorem offset_apb1enr2 : Reg.offset .apb1enr2 = 0x5C := rfl
@[simp] theorem offset_apb2enr : Reg.offset .apb2enr = 0x60 := rfl
@[simp] theorem offset_ccipr : Reg.offset .ccipr = 0x88 := rfl
@[simp] theorem offset_bdcr : Reg.offset .bdcr = 0x90 := rfl
@[simp] theorem offset_csr : Reg.offset .csr = 0x94 := rfl
@[simp] theorem offset_crrcr : Reg.offset .crrcr = 0x98 := rfl
@[simp] theorem offset_ccipr2 : Reg.offset .ccipr2 = 0xA8 := rfl

/-! ### Decoding -/

theorem reqOfWord_init {w : Nat} (h : wordKind w = 0) : reqOfWord w = .ok .init := by
  unfold reqOfWord
  split <;> simp_all

theorem reqOfWord_read {w : Nat} (h : wordKind w = 1) :
    reqOfWord w = .ok (.read (wordOffset w)) := by
  unfold reqOfWord
  split <;> simp_all

theorem reqOfWord_write {w : Nat} (h : wordKind w = 2) :
    reqOfWord w = .ok (.write (wordOffset w) (wordValue w)) := by
  unfold reqOfWord
  split <;> simp_all

theorem reqOfWord_other {w : Nat} (h : 3 ≤ wordKind w) :
    reqOfWord w = .error (.kindNotRequest (wordKind w)) := by
  unfold reqOfWord
  split <;> simp_all

/-- A word that carries a request decodes to the operation the request selects. -/
theorem decodeWord_ok {w : Nat} {q : Req} (h : reqOfWord w = .ok q) :
    decodeWord w = .ok (dispatch q) := by
  unfold decodeWord
  rw [h]

/-- A word that carries none is refused with the same name. -/
theorem decodeWord_error {w : Nat} {e : DecodeError} (h : reqOfWord w = .error e) :
    decodeWord w = .error e := by
  unfold decodeWord
  rw [h]

/-- The fields of a word put together from them (R72). -/
theorem word_fields (k o v : Nat) (ho : o < 2 ^ 32) (hv : v < 2 ^ 32) :
    wordKind (k * 2 ^ 64 + o * 2 ^ 32 + v) = k ∧ wordOffset (k * 2 ^ 64 + o * 2 ^ 32 + v) = o ∧
      wordValue (k * 2 ^ 64 + o * 2 ^ 32 + v) = v := by
  unfold wordKind wordOffset wordValue
  omega

theorem mem_namedOffsets {o : Nat} : o ∈ namedOffsets ↔ ∃ r ∈ Reg.all, r.offset = o := by
  simp [namedOffsets]

/-- The fallback row is selected exactly at the offsets that have no name (R76 order 5, R150). -/
theorem dispatchWrite_unnamed {o : Nat} (h : o ∉ namedOffsets) (v : Nat) :
    dispatchWrite o v = .writeOther o v := by
  simp only [namedOffsets, Reg.all, List.map, List.mem_cons, not_or, List.not_mem_nil] at h
  simp only [dispatchWrite, h, if_false]

/-- At a named offset the operation is that register's, and it is well-formed (R76 orders 1 to 5). -/
theorem dispatchWrite_named {o : Nat} (h : o ∈ namedOffsets) (v : Nat) :
    wellFormed (dispatchWrite o v) = true ∧ toReq (dispatchWrite o v) = .write o v := by
  obtain ⟨r, _, rfl⟩ := mem_namedOffsets.mp h
  cases r <;> exact ⟨rfl, rfl⟩

end Sys2Proof
end

