-- ==== Sys2Proof/Laws/State.lean ====
section
/-!
SUPPORT. One lemma per field per update of `State`, each true by rfl.
-/

namespace Sys2Proof.Machine

variable (s : State) (o : Nat) (v : Word) (e : TraceEvent) (r : Resp)

@[simp] theorem setCell_rf : (s.setCell o v).rf = s.rf.put o v := rfl
@[simp] theorem setCell_resp : (s.setCell o v).resp = s.resp := rfl
@[simp] theorem setCell_trace : (s.setCell o v).trace = s.trace := rfl
@[simp] theorem setCell_host : (s.setCell o v).host = s.host := rfl

@[simp] theorem zeroAll_rf : s.zeroAll.rf = [] := rfl
@[simp] theorem zeroAll_resp : s.zeroAll.resp = s.resp := rfl
@[simp] theorem zeroAll_trace : s.zeroAll.trace = s.trace := rfl
@[simp] theorem zeroAll_host : s.zeroAll.host = s.host := rfl

@[simp] theorem emit_rf : (s.emit e).rf = s.rf := rfl
@[simp] theorem emit_resp : (s.emit e).resp = s.resp := rfl
@[simp] theorem emit_trace : (s.emit e).trace = s.trace ++ [e] := rfl
@[simp] theorem emit_host : (s.emit e).host = s.host := rfl

@[simp] theorem respond_rf : (s.respond r).rf = s.rf := rfl
@[simp] theorem respond_resp : (s.respond r).resp = r := rfl
@[simp] theorem respond_trace : (s.respond r).trace = s.trace := rfl
@[simp] theorem respond_host : (s.respond r).host = s.host := rfl

@[simp] theorem applySwsFromSw_rf : s.applySwsFromSw.rf =
    s.rf.put 0x08 (cfgrNext (s.cell 0x08) (s.cell 0x00)) := rfl
@[simp] theorem applySwsFromSw_resp : s.applySwsFromSw.resp = s.resp := rfl
@[simp] theorem applySwsFromSw_trace : s.applySwsFromSw.trace = s.trace := rfl
@[simp] theorem applySwsFromSw_host : s.applySwsFromSw.host = s.host := rfl

variable (f : Word → Word) (value : Nat)

@[simp] theorem storeCell_rf :
    (s.storeCell f o value).rf = s.rf.put o (f (mask32 value)) := rfl
@[simp] theorem storeCell_resp : (s.storeCell f o value).resp = s.resp := rfl
@[simp] theorem storeCell_trace :
    (s.storeCell f o value).trace = s.trace ++ [.write o (mask32 value)] := rfl
@[simp] theorem storeCell_host : (s.storeCell f o value).host = s.host := rfl

theorem cell_eq : s.cell o = s.rf.get o := rfl
theorem reg_eq (g : Reg) : s.reg g = s.cell g.offset := rfl

end Sys2Proof.Machine
end

