-- ==== Sys2Proof/Laws/RegFile.lean ====
section
/-!
SUPPORT. The laws of the register file: a read after a write, every other cell unchanged, and the
canonical form, which every operation keeps.
-/

namespace Sys2Proof.Machine

@[simp] theorem RegFile.get_nil (o : Nat) : RegFile.get [] o = 0 := rfl

theorem RegFile.get_cons (k : Nat) (x : Word) (rf : RegFile) (o : Nat) :
    RegFile.get ((k, x) :: rf) o = if o = k then x else RegFile.get rf o := rfl

theorem RegFile.get_erase_self (rf : RegFile) (o : Nat) : (rf.erase o).get o = 0 := by
  induction rf with
  | nil => rfl
  | cons c rf ih =>
    obtain ⟨k, x⟩ := c
    by_cases h : k = o
    · simpa [RegFile.erase, h] using ih
    · have h' : ¬ o = k := fun e => h e.symm
      simpa [RegFile.erase, h, RegFile.get_cons, h'] using ih

theorem RegFile.get_erase_ne (rf : RegFile) {o p : Nat} (h : p ≠ o) :
    (rf.erase o).get p = rf.get p := by
  induction rf with
  | nil => rfl
  | cons c rf ih =>
    obtain ⟨k, x⟩ := c
    by_cases hk : k = o
    · have hp : ¬ p = k := fun e => h (e.trans hk)
      simpa [RegFile.erase, hk, RegFile.get_cons, h] using ih
    · have : RegFile.erase ((k, x) :: rf) o = (k, x) :: RegFile.erase rf o := by
        simp [RegFile.erase, hk]
      rw [this, RegFile.get_cons, RegFile.get_cons, ih]

theorem RegFile.get_insert_self (rf : RegFile) (o : Nat) (v : Word) (h : ∀ c ∈ rf, c.1 ≠ o) :
    (rf.insert o v).get o = v := by
  induction rf with
  | nil => simp [RegFile.insert, RegFile.get_cons]
  | cons c rf ih =>
    obtain ⟨k, x⟩ := c
    have hk : k ≠ o := h (k, x) (by simp)
    have ih' := ih fun c hc => h c (by simp [hc])
    by_cases hlt : o < k
    · simp [RegFile.insert, hlt, RegFile.get_cons]
    · simp [RegFile.insert, hlt, RegFile.get_cons, hk.symm, ih']

theorem RegFile.get_insert_ne (rf : RegFile) {o p : Nat} (v : Word) (h : p ≠ o) :
    (rf.insert o v).get p = rf.get p := by
  induction rf with
  | nil => simp [RegFile.insert, RegFile.get_cons, h]
  | cons c rf ih =>
    obtain ⟨k, x⟩ := c
    by_cases hlt : o < k
    · simp [RegFile.insert, hlt, RegFile.get_cons, h]
    · simp [RegFile.insert, hlt, RegFile.get_cons, ih]

theorem RegFile.erase_absent (rf : RegFile) (o : Nat) : ∀ c ∈ rf.erase o, c.1 ≠ o := by
  intro c hc
  simpa using (List.mem_filter.mp hc).2

/-- A read after a write to the same offset (R60). -/
@[simp] theorem RegFile.get_put_self (rf : RegFile) (o : Nat) (v : Word) :
    (rf.put o v).get o = v := by
  unfold RegFile.put
  split
  · next h => rw [RegFile.get_erase_self, h]; rfl
  · exact RegFile.get_insert_self _ _ _ (RegFile.erase_absent rf o)

/-- A write leaves every other cell as it was (R55, R64). -/
theorem RegFile.get_put_ne (rf : RegFile) {o p : Nat} (v : Word) (h : p ≠ o) :
    (rf.put o v).get p = rf.get p := by
  unfold RegFile.put
  split
  · exact RegFile.get_erase_ne rf h
  · rw [RegFile.get_insert_ne _ _ h, RegFile.get_erase_ne rf h]

/-- Both cases of a read after a write. -/
theorem RegFile.get_put (rf : RegFile) (o p : Nat) (v : Word) :
    (rf.put o v).get p = if p = o then v else rf.get p := by
  split
  · next h => rw [h, RegFile.get_put_self]
  · next h => exact RegFile.get_put_ne rf v h

theorem RegFile.erase_of_absent {rf : RegFile} {o : Nat} (h : ∀ c ∈ rf, c.1 ≠ o) :
    rf.erase o = rf := by
  unfold RegFile.erase
  rw [List.filter_eq_self]
  intro c hc
  simpa using h c hc

theorem RegFile.erase_insert {rf : RegFile} {o : Nat} (h : ∀ c ∈ rf, c.1 ≠ o) (v : Word) :
    (rf.insert o v).erase o = rf := by
  induction rf with
  | nil => simp [RegFile.insert, RegFile.erase]
  | cons c rf ih =>
    obtain ⟨k, x⟩ := c
    have hk : k ≠ o := h (k, x) (by simp)
    have hrest : ∀ c ∈ rf, c.1 ≠ o := fun c hc => h c (List.mem_cons_of_mem _ hc)
    by_cases hlt : o < k
    · simpa [RegFile.insert, hlt, RegFile.erase, hk] using RegFile.erase_of_absent hrest
    · simpa [RegFile.insert, hlt, RegFile.erase, hk] using ih hrest

/-- A second write to the same offset overwrites the first: nothing is merged. -/
theorem RegFile.put_put (rf : RegFile) (o : Nat) (v w : Word) :
    (rf.put o v).put o w = rf.put o w := by
  have h : (rf.put o v).erase o = rf.erase o := by
    unfold RegFile.put
    split
    · exact RegFile.erase_of_absent (RegFile.erase_absent rf o)
    · exact RegFile.erase_insert (RegFile.erase_absent rf o) v
  show (if w = RegFile.unlisted then (rf.put o v).erase o else ((rf.put o v).erase o).insert o w) = _
  rw [h]
  rfl

/-! ### The canonical form -/

theorem RegFile.wf_nil : RegFile.Wf [] := ⟨List.Pairwise.nil, by simp⟩

theorem RegFile.wf_erase {rf : RegFile} (h : rf.Wf) (o : Nat) : (rf.erase o).Wf :=
  ⟨h.1.filter _, fun c hc => h.2 c (List.mem_filter.mp hc).1⟩

theorem RegFile.mem_insert {rf : RegFile} {o : Nat} {v : Word} {c : Nat × Word}
    (hc : c ∈ rf.insert o v) : c = (o, v) ∨ c ∈ rf := by
  induction rf with
  | nil => simpa [RegFile.insert] using hc
  | cons d rf ih =>
    obtain ⟨k, x⟩ := d
    by_cases hlt : o < k
    · simpa [RegFile.insert, hlt] using hc
    · simp only [RegFile.insert, hlt, if_false, List.mem_cons] at hc
      rcases hc with hc | hc
      · exact .inr (by simp [hc])
      · exact (ih hc).imp id fun h => List.mem_cons_of_mem _ h

theorem RegFile.wf_insert {rf : RegFile} (h : rf.Wf) {o : Nat} (ho : ∀ c ∈ rf, c.1 ≠ o) {v : Word}
    (hv : v ≠ RegFile.unlisted) : (rf.insert o v).Wf := by
  refine ⟨?_, fun c hc => (RegFile.mem_insert hc).elim (fun e => e ▸ hv) (h.2 c)⟩
  induction rf with
  | nil => simp [RegFile.insert]
  | cons d rf ih =>
    obtain ⟨k, x⟩ := d
    obtain ⟨hk, hrest⟩ := List.pairwise_cons.mp h.1
    have hne : k ≠ o := ho (k, x) (by simp)
    by_cases hlt : o < k
    · simp only [RegFile.insert, hlt, if_true]
      refine List.pairwise_cons.mpr ⟨fun c hc => ?_, h.1⟩
      rcases List.mem_cons.mp hc with rfl | hc
      · exact hlt
      · exact lt_trans hlt (hk c hc)
    · simp only [RegFile.insert, hlt, if_false]
      have hwf : RegFile.Wf rf := ⟨hrest, fun c hc => h.2 c (List.mem_cons_of_mem _ hc)⟩
      refine List.pairwise_cons.mpr
        ⟨fun c hc => ?_, ih hwf fun c hc => ho c (List.mem_cons_of_mem _ hc)⟩
      rcases RegFile.mem_insert hc with rfl | hc
      · simp only; omega
      · exact hk c hc

/-- Every write keeps the canonical form. -/
theorem RegFile.wf_put {rf : RegFile} (h : rf.Wf) (o : Nat) (v : Word) : (rf.put o v).Wf := by
  unfold RegFile.put
  split
  · exact RegFile.wf_erase h o
  · next hv => exact RegFile.wf_insert (RegFile.wf_erase h o) (RegFile.erase_absent rf o) hv

/-! ### The same through `State` -/

theorem setCell_cell (s : State) (o p : Nat) (v : Word) :
    (s.setCell o v).cell p = if p = o then v else s.cell p := RegFile.get_put s.rf o p v

@[simp] theorem emit_cell (s : State) (e : TraceEvent) (p : Nat) :
    (s.emit e).cell p = s.cell p := rfl

@[simp] theorem respond_cell (s : State) (r : Resp) (p : Nat) :
    (s.respond r).cell p = s.cell p := rfl

@[simp] theorem zeroAll_cell (s : State) (p : Nat) : s.zeroAll.cell p = 0 := rfl

theorem storeCell_cell (s : State) (f : Word → Word) (o value p : Nat) :
    (s.storeCell f o value).cell p = if p = o then f (mask32 value) else s.cell p :=
  RegFile.get_put s.rf o p _

theorem applySwsFromSw_cell (s : State) (p : Nat) :
    s.applySwsFromSw.cell p =
      if p = 0x08 then cfgrNext (s.cell 0x08) (s.cell 0x00) else s.cell p :=
  RegFile.get_put s.rf 0x08 p _

end Sys2Proof.Machine
end

