-- ==== Sys2Proof/Laws/Exec.lean ====
section
/-!
SUPPORT. One lemma for each shared operation of the meanings, which says once everything it can do.
-/

namespace Sys2Proof.Machine

/-- A WRITE that stores `f` of the cut value is a store into its own cell and nothing else (R105,
R107). -/
theorem writeWith_storesOnly (f : Word → Word) (o value : Nat) (s : State) :
    storesOnly (writeWith f o value s) s o (f (mask32 value)) (.write o (mask32 value)) := by
  refine ⟨_, rfl, ?_, fun p hp => ?_, rfl, rfl, rfl⟩
  · rw [respond_cell, storeCell_cell, if_pos rfl]
  · rw [respond_cell, storeCell_cell, if_neg hp]

/-- A pass-through WRITE stores the cut value (R105). -/
theorem writeVerbatim_storesOnly (o value : Nat) (s : State) :
    storesOnly (writeVerbatim o value s) s o (mask32 value) (.write o (mask32 value)) :=
  writeWith_storesOnly id o value s

/-- The decision table in two cases (R155, R157): SWS follows SW when the source SW names is ready, and
keeps the bits CFGR holds otherwise. -/
theorem swsNext_eq (c cr : Word) :
    swsNext c cr = if sourceReady cr (c.toNat % 4) = true then swOf c else swsOf c := by
  rw [← swOf_toNat]
  unfold swsNext
  rcases bv2_cases (swOf c) with h | h | h | h <;>
    simp [h, sourceReady, bit, hsirdyBit, hserdyBit, pllrdyBit]

/-- A WRITE keeps the canonical form. -/
theorem storeCell_wf {s : State} (h : s.rf.Wf) (f : Word → Word) (o value : Nat) :
    (s.storeCell f o value).rf.Wf := RegFile.wf_put h o _

/-- `applySwsFromSw` keeps the canonical form. -/
theorem applySwsFromSw_wf {s : State} (h : s.rf.Wf) : s.applySwsFromSw.rf.Wf :=
  RegFile.wf_put h _ _

/-- A store that is all a step does determines the cell it stores to. -/
theorem storesOnly_cell {out : Host.Outcome State Fault Refusal} {s t : State} {o : Nat} {w : Word}
    {line : TraceEvent} (h : storesOnly out s o w line) (ht : out = .next t) (p : Nat) :
    t.cell p = if p = o then w else s.cell p := by
  obtain ⟨t', ht', ho, hp, _⟩ := h
  obtain rfl : t' = t := by simpa [ht'] using ht
  split
  · next e => rw [e, ho]
  · next e => exact hp p e

end Sys2Proof.Machine
end

