-- ==== Sys2Proof/Laws/PerInstr.lean ====
section
/-!
SUPPORT. The family `RequestRoundTrip`: a well-formed operation is the one its own request selects
(R76), one lemma per constructor.
-/

namespace Sys2Proof.Laws.RequestRoundTrip

/-- The two stages of decoding, applied to the request that stands for a well-formed operation, select
that operation. -/
def Statement (i : Instr) : Prop := wellFormed i = true → dispatch (toReq i) = i

theorem init : Statement .init := fun _ => rfl
theorem read (off : Nat) : Statement (.read off) := fun _ => rfl
theorem writeCr (value : Nat) : Statement (.writeCr value) := fun _ => rfl
theorem writeCfgr (value : Nat) : Statement (.writeCfgr value) := fun _ => rfl
theorem writeCrrcr (value : Nat) : Statement (.writeCrrcr value) := fun _ => rfl
theorem writePllcfgr (value : Nat) : Statement (.writePllcfgr value) := fun _ => rfl
theorem writeCier (value : Nat) : Statement (.writeCier value) := fun _ => rfl
theorem writeCifr (value : Nat) : Statement (.writeCifr value) := fun _ => rfl
theorem writeCicr (value : Nat) : Statement (.writeCicr value) := fun _ => rfl
theorem writeBdcr (value : Nat) : Statement (.writeBdcr value) := fun _ => rfl
theorem writeCsr (value : Nat) : Statement (.writeCsr value) := fun _ => rfl
theorem writeCcipr (value : Nat) : Statement (.writeCcipr value) := fun _ => rfl
theorem writeCcipr2 (value : Nat) : Statement (.writeCcipr2 value) := fun _ => rfl
theorem writeAhb1enr (value : Nat) : Statement (.writeAhb1enr value) := fun _ => rfl
theorem writeAhb2enr (value : Nat) : Statement (.writeAhb2enr value) := fun _ => rfl
theorem writeAhb3enr (value : Nat) : Statement (.writeAhb3enr value) := fun _ => rfl
theorem writeApb1enr1 (value : Nat) : Statement (.writeApb1enr1 value) := fun _ => rfl
theorem writeApb1enr2 (value : Nat) : Statement (.writeApb1enr2 value) := fun _ => rfl
theorem writeApb2enr (value : Nat) : Statement (.writeApb2enr value) := fun _ => rfl
theorem writeIcscr (value : Nat) : Statement (.writeIcscr value) := fun _ => rfl

theorem writeOther (off value : Nat) : Statement (.writeOther off value) := by
  intro h
  simp only [wellFormed, namedOffsets, Reg.all, List.map, Bool.not_eq_true', List.contains_eq_mem,
    decide_eq_false_iff_not, List.mem_cons, not_or, List.not_mem_nil] at h
  simp only [toReq, dispatch, dispatchWrite, h, if_false]

end Sys2Proof.Laws.RequestRoundTrip
end

