-- ==== Sys2Proof/Tests/Slice0.lean ====
section
/-!
SUPPORT. The model's own tests: words written out from the layout of R72, ill-formed terms, single steps
whose expected values stand in spec/95_test_vectors.md, and for every statement with hypotheses a
witness that meets them.
-/

namespace Sys2Proof.Tests

open Sys2Proof.Machine

/-- A state with the given cells and nothing else. -/
def stateOf (cells : RegFile) : State :=
  { rf := cells, resp := .none, trace := [], host := [] }

/-- The cells after a step that answers a next state. -/
def cellsAfter (out : Host.Outcome State Fault Refusal) : Option RegFile :=
  match out with
  | .next t => some t.rf
  | _ => none

/-- The response after a step that answers a next state. -/
def respAfter (out : Host.Outcome State Fault Refusal) : Option Resp :=
  match out with
  | .next t => some t.resp
  | _ => none

/-- The reason of a refusal. -/
def refusalOf (out : Host.Outcome State Fault Refusal) : Option Refusal :=
  match out with
  | .refused r => some r
  | _ => none

/-! ### Ill-formed terms -/

theorem test_other_at_named_offset_refused : wellFormed (.writeOther 0x00 0) = false := by decide
theorem test_other_at_last_named_offset_refused : wellFormed (.writeOther 0xA8 0) = false := by decide
theorem test_other_at_gap_accepted : wellFormed (.writeOther 0x9C 0) = true := by decide
theorem test_wide_offset_does_not_fit : fits66 (.read (2 ^ 32)) = false := by decide
theorem test_wide_value_does_not_fit : fits66 (.writeCr (2 ^ 32)) = false := by decide
theorem test_wide_other_offset_does_not_fit : fits66 (.writeOther (2 ^ 32) 0) = false := by decide

/-! ### Decoding, each word written out as kind, offset, value (R72; the vector's id beside it) -/

/-- V6.2. -/
theorem test_decode_init_ignores_fields : decodeWord 0x0FFFFFFFFFFFFFFFF = .ok (.init) := by decide
/-- R72; the value field is ignored. -/
theorem test_decode_read : decodeWord 0x112345678DEADBEEF = .ok (.read 0x12345678) := by decide
/-- V6.6. -/
theorem test_decode_writeCr : decodeWord 0x20000000000000100 = .ok (.writeCr 0x100) := by decide
/-- V6.7. -/
theorem test_decode_writeCfgr : decodeWord 0x20000000800000002 = .ok (.writeCfgr 2) := by decide
/-- V6.8. -/
theorem test_decode_writeCrrcr : decodeWord 0x20000009800000001 = .ok (.writeCrrcr 1) := by decide
/-- V3.60. -/
theorem test_decode_writePllcfgr : decodeWord 0x20000000CFFFFFFFF = .ok (.writePllcfgr 0xFFFFFFFF) := by decide
/-- V3.61. -/
theorem test_decode_writeCier : decodeWord 0x200000018FFFFFFFF = .ok (.writeCier 0xFFFFFFFF) := by decide
/-- V3.62. -/
theorem test_decode_writeCifr : decodeWord 0x20000001CFFFFFFFF = .ok (.writeCifr 0xFFFFFFFF) := by decide
/-- V3.63. -/
theorem test_decode_writeCicr : decodeWord 0x200000020FFFFFFFF = .ok (.writeCicr 0xFFFFFFFF) := by decide
/-- V3.64. -/
theorem test_decode_writeBdcr : decodeWord 0x200000090FFFFFFFF = .ok (.writeBdcr 0xFFFFFFFF) := by decide
/-- V3.65. -/
theorem test_decode_writeCsr : decodeWord 0x200000094FFFFFFFF = .ok (.writeCsr 0xFFFFFFFF) := by decide
/-- V3.66. -/
theorem test_decode_writeCcipr : decodeWord 0x200000088FFFFFFFF = .ok (.writeCcipr 0xFFFFFFFF) := by decide
/-- V3.67. -/
theorem test_decode_writeCcipr2 : decodeWord 0x2000000A8FFFFFFFF = .ok (.writeCcipr2 0xFFFFFFFF) := by decide
/-- V3.68. -/
theorem test_decode_writeAhb1enr : decodeWord 0x200000048FFFFFFFF = .ok (.writeAhb1enr 0xFFFFFFFF) := by decide
/-- V3.69. -/
theorem test_decode_writeAhb2enr : decodeWord 0x20000004CFFFFFFFF = .ok (.writeAhb2enr 0xFFFFFFFF) := by decide
/-- V3.70. -/
theorem test_decode_writeAhb3enr : decodeWord 0x200000050FFFFFFFF = .ok (.writeAhb3enr 0xFFFFFFFF) := by decide
/-- V3.71. -/
theorem test_decode_writeApb1enr1 : decodeWord 0x200000058FFFFFFFF = .ok (.writeApb1enr1 0xFFFFFFFF) := by decide
/-- V3.72. -/
theorem test_decode_writeApb1enr2 : decodeWord 0x20000005CFFFFFFFF = .ok (.writeApb1enr2 0xFFFFFFFF) := by decide
/-- V3.73. -/
theorem test_decode_writeApb2enr : decodeWord 0x200000060FFFFFFFF = .ok (.writeApb2enr 0xFFFFFFFF) := by decide
/-- V3.74. -/
theorem test_decode_writeIcscr : decodeWord 0x200000004FFFFFFFF = .ok (.writeIcscr 0xFFFFFFFF) := by decide
/-- V6.24. -/
theorem test_decode_writeOther_gap : decodeWord 0x20000001000000000 = .ok (.writeOther 0x10 0) := by decide
/-- V6.29. -/
theorem test_decode_writeOther_high_offset : decodeWord 0x28000000800000000 = .ok (.writeOther 0x80000008 0) := by decide
/-- V6.32. -/
theorem test_decode_kind_three : decodeWord 0x30000000800000002 = .error (.kindNotRequest 3) := by
  decide
/-- R82's example: WR CFGR, 0x2 is 0x2_00000008_00000002. -/
theorem test_encode_writeCfgr : encode (.writeCfgr 2) = 0x20000000800000002 := by decide
/-- R82: the value is cut to 32 bits before it fills the word. -/
theorem test_encode_cuts_value : encode (.writeAhb1enr 0x123456789) = 0x20000004823456789 := by decide
/-- The table is written in ascending priority (R77). -/
theorem test_table_in_priority_order :
    (opcodeTable.map OpcodeRow.priority).Pairwise (· ≤ ·) ∧ opcodeTable.length = 21 := by decide

/-! ### Single steps (spec/95_test_vectors.md) -/

/-- V2.1. -/
theorem test_init_at_power_on :
    cellsAfter (exec .init State.powerOn) = some [(0x00, 0x500)] := by decide
/-- R94's worked example. -/
theorem test_init_discards_everything :
    cellsAfter (exec .init (stateOf
      [(0x00, 0x03030500), (0x08, 0xA), (0x48, 0xFFFFFFFF), (0x1000, 7)])) =
      some [(0x00, 0x500)] := by decide
/-- V2.16. -/
theorem test_read_misaligned : respAfter (exec (.read 0x9) (stateOf
    [(0x08, 0xA), (0x09, 0xDEADBEEF)])) = some (.value 0xDEADBEEF) := by decide
/-- V2.14. -/
theorem test_read_never_written :
    respAfter (exec (.read 0x04) State.reset) = some (.value 0) := by decide
/-- V3.20. -/
theorem test_writeCr_forces_ready : cellsAfter (exec (.writeCr 0x12345678) State.reset) =
    some [(0x00, 0x10345278)] := by decide
/-- V3.31: the PLL turned off while SWS names it. -/
theorem test_writeCr_leaves_cfgr : cellsAfter (exec (.writeCr 0x00000100) (stateOf
    [(0x00, 0x03000500), (0x08, 0xA)])) = some [(0x00, 0x500), (0x08, 0xA)] := by decide
/-- V5.4: the hold case keeps the written bits 3:2, not the SWS held before (conflict C1). -/
theorem test_writeCfgr_hold : cellsAfter (exec (.writeCfgr 0x2) (stateOf
    [(0x00, 0x500), (0x08, 0xA)])) = some [(0x00, 0x500), (0x08, 0x2)] := by decide
/-- Section 4, row 0x1FFFFFFF2, column CR = 0x03030500. -/
theorem test_writeCfgr_honoured : cellsAfter (exec (.writeCfgr 0x1FFFFFFF2) (stateOf
    [(0x00, 0x03030500)])) = some [(0x00, 0x03030500), (0x08, 0xFFFFFFFA)] := by decide
/-- V3.44. -/
theorem test_writeCrrcr_off : cellsAfter (exec (.writeCrrcr 0xFFFFFFFE) State.powerOn) =
    some [(0x98, 0xFFFFFFFC)] := by decide
/-- V3.51. -/
theorem test_writeCrrcr_wide : cellsAfter (exec (.writeCrrcr 0x100000001) State.powerOn) =
    some [(0x98, 0x3)] := by decide
/-- V3.60. -/
theorem test_writePllcfgr : cellsAfter (exec (.writePllcfgr 0xFFFFFFFF) State.reset) =
    some [(0x00, 0x500), (0x0C, 0xFFFFFFFF)] := by decide
/-- V3.61. -/
theorem test_writeCier : cellsAfter (exec (.writeCier 0xFFFFFFFF) State.reset) =
    some [(0x00, 0x500), (0x18, 0xFFFFFFFF)] := by decide
/-- V3.62. -/
theorem test_writeCifr : cellsAfter (exec (.writeCifr 0xFFFFFFFF) State.reset) =
    some [(0x00, 0x500), (0x1C, 0xFFFFFFFF)] := by decide
/-- V3.63. -/
theorem test_writeCicr : cellsAfter (exec (.writeCicr 0xFFFFFFFF) State.reset) =
    some [(0x00, 0x500), (0x20, 0xFFFFFFFF)] := by decide
/-- V3.64. -/
theorem test_writeBdcr : cellsAfter (exec (.writeBdcr 0xFFFFFFFF) State.reset) =
    some [(0x00, 0x500), (0x90, 0xFFFFFFFF)] := by decide
/-- V3.65. -/
theorem test_writeCsr : cellsAfter (exec (.writeCsr 0xFFFFFFFF) State.reset) =
    some [(0x00, 0x500), (0x94, 0xFFFFFFFF)] := by decide
/-- V3.66. -/
theorem test_writeCcipr : cellsAfter (exec (.writeCcipr 0xFFFFFFFF) State.reset) =
    some [(0x00, 0x500), (0x88, 0xFFFFFFFF)] := by decide
/-- V3.67. -/
theorem test_writeCcipr2 : cellsAfter (exec (.writeCcipr2 0xFFFFFFFF) State.reset) =
    some [(0x00, 0x500), (0xA8, 0xFFFFFFFF)] := by decide
/-- V3.68. -/
theorem test_writeAhb1enr : cellsAfter (exec (.writeAhb1enr 0xFFFFFFFF) State.reset) =
    some [(0x00, 0x500), (0x48, 0xFFFFFFFF)] := by decide
/-- V3.69. -/
theorem test_writeAhb2enr : cellsAfter (exec (.writeAhb2enr 0xFFFFFFFF) State.reset) =
    some [(0x00, 0x500), (0x4C, 0xFFFFFFFF)] := by decide
/-- V3.70. -/
theorem test_writeAhb3enr : cellsAfter (exec (.writeAhb3enr 0xFFFFFFFF) State.reset) =
    some [(0x00, 0x500), (0x50, 0xFFFFFFFF)] := by decide
/-- V3.71. -/
theorem test_writeApb1enr1 : cellsAfter (exec (.writeApb1enr1 0xFFFFFFFF) State.reset) =
    some [(0x00, 0x500), (0x58, 0xFFFFFFFF)] := by decide
/-- V3.72. -/
theorem test_writeApb1enr2 : cellsAfter (exec (.writeApb1enr2 0xFFFFFFFF) State.reset) =
    some [(0x00, 0x500), (0x5C, 0xFFFFFFFF)] := by decide
/-- V3.73. -/
theorem test_writeApb2enr : cellsAfter (exec (.writeApb2enr 0xFFFFFFFF) State.reset) =
    some [(0x00, 0x500), (0x60, 0xFFFFFFFF)] := by decide
/-- V3.74. -/
theorem test_writeIcscr : cellsAfter (exec (.writeIcscr 0xFFFFFFFF) State.reset) =
    some [(0x00, 0x500), (0x04, 0xFFFFFFFF)] := by decide
/-- R150: WR 0x1000, 0x123456789. -/
theorem test_writeOther_wide : cellsAfter (exec (.writeOther 0x1000 0x123456789) State.reset) =
    some [(0x00, 0x500), (0x1000, 0x23456789)] := by decide
/-- R150: WR 0x01, 0xFFFFFFFF leaves CR as it was. -/
theorem test_writeOther_beside_cr : cellsAfter (exec (.writeOther 0x01 0xFFFFFFFF) State.reset) =
    some [(0x00, 0x500), (0x01, 0xFFFFFFFF)] := by decide
/-- Writing 0 takes the cell off the list: the canonical form (R11). -/
theorem test_write_zero_unlists : cellsAfter (exec (.writeCsr 0) (stateOf [(0x94, 5)])) = some [] := by
  decide

/-! ### The step -/

/-- A word placed by `withFetchWord` runs next, as a 72-bit word of nine bytes (V6.7). -/
theorem test_fetch_runs_word :
    cellsAfter (step (State.reset.withFetchWord 72 0x20000000800000003)) =
      some [(0x00, 0x500), (0x08, 0xF)] := by decide
theorem test_decodeTableWord : decodeTableWord 72 0x20000000800000003 = some (.writeCfgr 3) := by
  decide
/-- V6.31. -/
theorem test_step_refuses_kind_three :
    refusalOf (step (State.reset.withFetchWord 72 0x30000000000000000)) =
      some (.kindNotRequest 3) := by decide
/-- S6b, lines 4 and 5 of P1: SETB CR, 0x01000000 is a READ and a WRITE. -/
theorem test_setb_cr : cellsAfter (Host.Core.run Sys2Proof.core 2
    { State.reset with host := [HostEvent.setb 0x00 0x01000000] }) =
      some [(0x00, 0x03000500)] := by decide

/-! ### Witnesses: concrete inputs that meet each statement's hypotheses, at boundary values -/

theorem witness_DecodeInvertsEncode :
    (wellFormed (.writeOther 0xFFFFFFFF 0xFFFFFFFF) = true ∧
      fits66 (.writeOther 0xFFFFFFFF 0xFFFFFFFF) = true) ∧
    (wellFormed (.writeCfgr 0) = true ∧ fits66 (.writeCfgr 0) = true) := by decide

theorem witness_EncodeInvertsDecodeUpToIgnoredFields :
    (decodeWord 0x0FFFFFFFFFFFFFFFF = .ok .init ∧ wordKind 0x0FFFFFFFFFFFFFFFF = 0) ∧
    (decodeWord 0x1FFFFFFFFFFFFFFFF = .ok (.read 0xFFFFFFFF) ∧
      wordKind 0x1FFFFFFFFFFFFFFFF = 1) ∧
    (decodeWord 0x20000009800000000 = .ok (.writeCrrcr 0) ∧
      wordKind 0x20000009800000000 = 2) := by decide

theorem witness_StepRunsDecodedWord :
    ({ State.reset with host := [.word 0x10000000000000000] } : State).host =
      .word 0x10000000000000000 :: [] ∧
    decodeWord 0x10000000000000000 = .ok (.read 0) := by decide

theorem witness_StepRunsRequestedOperation :
    ({ State.reset with host := [.desc .init, .desc (.read 8)] } : State).host =
      .desc .init :: [.desc (.read 8)] := by decide

theorem witness_FetchWordRunsNext :
    decodeTableWord 66 0x20000000000000100 = some (.writeCr 0x100) ∧
    decodeTableWord 72 0x00000000000000000 = some .init := by decide

theorem witness_StepWithoutRequestChangesNothing : State.powerOn.host = [] := by decide

theorem witness_KindThreeIsRefused :
    3 ≤ wordKind 0x30000000000000000 ∧ 3 ≤ wordKind 0x40000000000000000 ∧
    ({ State.reset with host := [.word 0x30000000000000000] } : State).host =
      .word 0x30000000000000000 :: [] := by decide

theorem witness_OtherAccessSizesAreRefused :
    (3 ≠ 4 ∧ ({ State.reset with host := [.load 0x40021000 3] } : State).host =
      .load 0x40021000 3 :: []) ∧
    (5 ≠ 4 ∧ ({ State.reset with host := [.store 0x40021000 5 1] } : State).host =
      .store 0x40021000 5 1 :: []) := by decide

theorem witness_BusAccessIsReadOrWrite :
    (0 < Config.rccWindow ∧ ({ State.reset with host := [.load (Config.rccBase + 0) 4] } :
      State).host = .load (Config.rccBase + 0) 4 :: []) ∧
    (0xAB < Config.rccWindow ∧ ({ State.reset with host := [.store (Config.rccBase + 0xAB) 4 1] } :
      State).host = .store (Config.rccBase + 0xAB) 4 1 :: []) := by
  refine ⟨⟨?_, rfl⟩, ?_, rfl⟩ <;> (unfold Config.rccWindow; omega)

theorem witness_ReadAnswersTheCell :
    (0xFFFFFFFF < 2 ^ 32 ∧ 0 < 2 ^ 32) ∧ (∀ c ∈ State.reset.rf, c.1 ≠ 0x08) := by decide

theorem witness_CrReadyBitsFollowEnableBits :
    ∀ i, i < 32 → i ≠ 10 → i ≠ 17 → i ≠ 25 →
      Nat.testBit 0x02020500 i = Nat.testBit 0x00000100 i := by decide

theorem witness_MsiIsAlwaysSelectable : 3 % 4 = 3 ∧ 0xFFFFFFFF % 4 = 3 := by decide

theorem witness_SwsTransitionTable :
    wellFormed .init = true ∧ wellFormed (.writeCfgr 0x7) = true ∧
    wellFormed (.writeOther 0x09 1) = true ∧ wellFormed (.writeCr 0) = true := by decide

theorem witness_ApplySwsChangesOnlySws :
    sourceReady ((stateOf [(0x08, 0x2)]).cell 0x00) (((stateOf [(0x08, 0x2)]).cell 0x08).toNat % 4) =
      false := by decide

theorem witness_MisalignedOffsetIsItsOwnCell : 1 % 4 ≠ 0 ∧ 0xA7 % 4 ≠ 0 := by decide

theorem witness_FrameOfEveryRequest :
    exec (dispatch .init) State.powerOn = .next State.reset ∧
    (∃ t, exec (dispatch (.read 0)) State.reset = .next t) ∧
    (∃ t, exec (dispatch (.write 0x08 3)) State.reset = .next t) := ⟨rfl, ⟨_, rfl⟩, ⟨_, rfl⟩⟩

theorem witness_CfgrChangesOnlyByInitOrCfgrWrite :
    wellFormed (.writeCfgr 3) = true ∧ ∃ t, exec (.writeCfgr 3) State.reset = .next t ∧
      t.cell 0x08 ≠ State.reset.cell 0x08 := ⟨rfl, _, rfl, by decide⟩

theorem witness_SignedHostWordsAreTakenBitForBit :
    32 ≤ 32 ∧ (0x04 ≠ 0x00 ∧ 0x04 ≠ 0x08 ∧ 0x04 ≠ 0x98) ∧ (0x99 ≠ 0x00 ∧ 0x99 ≠ 0x08 ∧ 0x99 ≠ 0x98) ∧
    signedHostWord 33 (-1) = 0x1FFFFFFFF ∧
    cellsAfter (exec (dispatch (.write 0x99 (signedHostWord 64 (-2)))) State.powerOn) =
      some [(0x99, 0xFFFFFFFE)] ∧
    cellsAfter (exec (dispatch (.write 0x00 (signedHostWord 32 (-1)))) State.powerOn) =
      some [(0x00, 0xFFFFFFFF)] := by decide

theorem witness_WritesAreIdempotent : ∃ t u,
    exec (dispatch (.write 0x08 2)) State.reset = .next t ∧
    exec (dispatch (.write 0x08 2)) t = .next u := ⟨_, _, rfl, rfl⟩

theorem witness_ReadYourWrite :
    (0x04 ≠ 0x00 ∧ 0x04 ≠ 0x08 ∧ 0x04 ≠ 0x98) ∧ (0x99 ≠ 0x00 ∧ 0x99 ≠ 0x08 ∧ 0x99 ≠ 0x98) ∧
    respAfter (afterRequests [.write 0x99 1, .read 0x99] State.reset) = some (.value 1) := by decide

theorem witness_UntouchedCellIsReadBack :
    ∀ q ∈ [Req.read 0x08, Req.write 0x09 7], q.touches 0x08 = false := by decide

theorem witness_CellsDependOnlyOnThemselvesAndCr :
    (stateOf [(0x08, 0xA)]).cell 0x00 = (stateOf [(0x08, 0xA), (0x0C, 9)]).cell 0x00 ∧
    (stateOf [(0x08, 0xA)]).cell 0x08 = (stateOf [(0x08, 0xA), (0x0C, 9)]).cell 0x08 := by decide

theorem witness_LateReadyNeedsAnotherCfgrWrite :
    (sourceReady (State.powerOn.cell 0x00) 0 = false ∧ Nat.testBit 0x100 8 = true) ∧
    (sourceReady (State.reset.cell 0x00) 1 = false ∧ Nat.testBit 0x10100 16 = true) ∧
    (2 < 3 ∧ 2 % 4 = 2 ∧ sourceReady (State.reset.cell 0x00) 2 = false ∧
      Nat.testBit 0x01000500 24 = true) := by decide

theorem witness_PollEndsAtOnceOrNever :
    State.reset.cell 0x00 &&& 0x400#32 = 0x400#32 ∧
    State.reset.cell 0x00 &&& 0x02000000#32 ≠ 0x02000000#32 ∧
    ({ State.reset with host := [.poll 0x00 0x400 0x400] } : State).host =
      .poll 0x00 0x400 0x400 :: [] := by decide

theorem witness_ReadModifyWriteIsReadThenWrite :
    ({ State.reset with host := [.rmw 0x08 3 2] } : State).host = .rmw 0x08 3 2 :: [] := by decide

theorem witness_StepKeepsInvariants :
    StateInv { State.reset with host := [.desc (.write 0x08 3)] } ∧
    ∃ t, step { State.reset with host := [.desc (.write 0x08 3)] } = .next t :=
  ⟨by decide, _, rfl⟩

theorem witness_ReachableStatesMeetInvariants : ∃ t,
    Host.Core.run Sys2Proof.core 2
      { State.powerOn with host := [.desc .init, .desc (.write 0x98 1)] } = .next t := ⟨_, rfl⟩

theorem witness_EverySwsCombinationIsReachable : (0#2 ≠ 3#2) ∧ (2#2 ≠ 3#2) := by decide

theorem witness_CanonicalRegisterFilesAreEqualWhenReadsAgree :
    RegFile.Wf [(0x00, 0x500), (0x08, 0xA)] ∧
    ∀ o, RegFile.get [(0x00, 0x500), (0x08, 0xA)] o = RegFile.get [(0x00, 0x500), (0x08, 0xA)] o :=
  ⟨by decide, fun _ => rfl⟩

theorem witness_RequestsAreNeverRefused :
    ∀ e ∈ ({ State.reset with host := [.word 0, .poll 0x08 0xC 0x8, .rmw 0x00 0 1] } : State).host,
      ∃ q, HostEvent.request e = .ok q := by
  intro e he
  simp only [List.mem_cons, List.not_mem_nil, or_false] at he
  rcases he with rfl | rfl | rfl <;> exact ⟨_, rfl⟩

end Sys2Proof.Tests
end

section
/-!
PROOF. How one step serves the host's next event (R5, R6), and the statements O6, O7 and O9 about it.
-/

namespace Sys2Proof.Machine

/-! ### The decoder and the port read backwards -/

/-- A word decodes to an operation exactly when it carries a request that selects it (R72, R76). -/
theorem decodeWord_eq_ok_iff {w : Nat} {i : Instr} :
    decodeWord w = .ok i ↔ ∃ q, reqOfWord w = .ok q ∧ dispatch q = i := by
  cases h : reqOfWord w with
  | ok q => simp [decodeWord_ok h]
  | error e => simp [decodeWord_error h]

theorem request_word_of_ok {w : Nat} {q : Req} (h : reqOfWord w = .ok q) :
    HostEvent.request (.word w) = .ok q := by
  simp only [HostEvent.request, h]

@[simp] theorem rest_word (w : Nat) (r : Resp) : HostEvent.rest (.word w) r = [] := rfl
@[simp] theorem rest_desc (q : Req) (r : Resp) : HostEvent.rest (.desc q) r = [] := rfl

/-- An event that leaves nothing to do takes the block's outcome as it is. -/
theorem takeAnswer_of_rest_nil {e : HostEvent} (h : ∀ r, HostEvent.rest e r = [])
    (out : Host.Outcome State Fault Refusal) : takeAnswer e out = out := by
  cases out with
  | next t => simp [takeAnswer, h]
  | fault f => rfl
  | refused r => rfl

/-! ### One step, by the host's next event -/

theorem step_of_host_nil {s : State} (h : s.host = []) : step s = .next s := by
  unfold step
  rw [h]

/-- An event that spells a request runs the operation the request selects, and the host takes the
answer (R5, R6). -/
theorem step_of_request {s : State} {e : HostEvent} {later : List HostEvent} {q : Req}
    (hs : s.host = e :: later) (hq : HostEvent.request e = .ok q) :
    step s = takeAnswer e (exec (dispatch q) { s with host := later }) := by
  unfold step
  rw [hs]
  simp only [hq]

end Sys2Proof.Machine

open Sys2Proof Sys2Proof.Machine

/-- Settles O6: the request the word carries selects `i`, and a word leaves nothing on the host's
list. -/
theorem stepRunsDecodedWord : Obligations.StepRunsDecodedWord := by
  intro s w later i hs hw
  obtain ⟨q, hq, rfl⟩ := decodeWord_eq_ok_iff.mp hw
  rw [step_of_request hs (request_word_of_ok hq), takeAnswer_of_rest_nil (rest_word w)]

/-- Settles O7: a descriptor is its own request, and leaves nothing on the host's list. -/
theorem stepRunsRequestedOperation : Obligations.StepRunsRequestedOperation := by
  intro s q later hs
  rw [step_of_request hs rfl, takeAnswer_of_rest_nil (rest_desc q)]

/-- Settles O9: the step with an empty host list (log entry 9). -/
theorem stepWithoutRequestChangesNothing : Obligations.StepWithoutRequestChangesNothing :=
  fun _ => step_of_host_nil
end

section
/-!
PROOF. The outcome of a WRITE at any offset in one equation: the dispatch by offset (R76, R106) and the
store rules (R110, R120, R130, R135 to R150) taken together. The written value enters it only through
its cut to 32 bits (R105), which is O31.
-/

namespace Sys2Proof.Machine

/-- What a WRITE of the cut value `v` leaves in the cell at `o`, in a state whose CR is `cr`: the store
rules of CR (R110), CFGR (R120) and CRRCR (R130), the value itself at every other offset. -/
def storedWord (cr : Word) (o : Nat) (v : Word) : Word :=
  if o = 0x00 then crStore v
  else if o = 0x08 then cfgrNext v cr
  else if o = 0x98 then crrcrStore v
  else v

/-- The state after a WRITE of the cut value `v` at `o`: one line traced, one cell stored, no answer
(R71, R105, R107). -/
def State.afterWrite (s : State) (o : Nat) (v : Word) : State :=
  ((s.emit (.write o v)).setCell o (storedWord (s.cell 0x00) o v)).respond .none

/-- A store to CFGR followed by `applySwsFromSw` is one store of the value with SWS recomputed: CR is
another cell, and the second store overwrites the first (R120, R155). -/
theorem setCell_cfgr_applySwsFromSw (s : State) (v : Word) :
    (s.setCell 0x08 v).applySwsFromSw = s.setCell 0x08 (cfgrNext v (s.cell 0x00)) := by
  have hcr : (s.setCell 0x08 v).cell 0x00 = s.cell 0x00 := by simp [setCell_cell]
  have hcfgr : (s.setCell 0x08 v).cell 0x08 = v := by simp [setCell_cell]
  have hput : ∀ w, (s.setCell 0x08 v).setCell 0x08 w = s.setCell 0x08 w := fun w =>
    congrArg (fun rf => { s with rf }) (RegFile.put_put s.rf 0x08 v w)
  simp only [State.applySwsFromSw, reg_eq, offset_cfgr, offset_cr, hcr, hcfgr, hput]

theorem execWriteCfgr_eq (v : Nat) (s : State) :
    execWriteCfgr v s = .next (s.afterWrite 0x08 (mask32 v)) := by
  calc execWriteCfgr v s
      = .next ((((s.emit (.write 0x08 (mask32 v))).setCell 0x08 (mask32 v)).applySwsFromSw).respond
          .none) := rfl
    _ = .next (s.afterWrite 0x08 (mask32 v)) := by rw [setCell_cfgr_applySwsFromSw]; rfl

theorem writeVerbatim_eq_afterWrite {o : Nat} (hcr : o ≠ 0x00) (hcfgr : o ≠ 0x08)
    (hcrrcr : o ≠ 0x98) (v : Nat) (s : State) :
    writeVerbatim o v s = .next (s.afterWrite o (mask32 v)) := by
  simp [writeVerbatim, writeWith, State.storeCell, State.afterWrite, storedWord, hcr, hcfgr, hcrrcr]

/-- Every WRITE, at every offset and from every state. At a named offset the dispatch and `storedWord`
evaluate to the same store rule; only CFGR, which stores twice, needs an argument of its own. -/
theorem exec_dispatch_write (o v : Nat) (s : State) :
    exec (dispatch (.write o v)) s = .next (s.afterWrite o (mask32 v)) := by
  by_cases ho : o ∈ namedOffsets
  · obtain ⟨r, -, rfl⟩ := mem_namedOffsets.mp ho
    cases r with
    | cfgr => exact execWriteCfgr_eq v s
    | _ => rfl
  · have hne : ∀ r ∈ Reg.all, o ≠ r.offset := fun r hr h => ho (mem_namedOffsets.mpr ⟨r, hr, h.symm⟩)
    have hother : dispatch (.write o v) = .writeOther o v := dispatchWrite_unnamed ho v
    rw [hother]
    exact writeVerbatim_eq_afterWrite (hne .cr (by decide)) (hne .cfgr (by decide))
      (hne .crrcr (by decide)) v s

/-- The cut to 32 bits sees only the low 32 bits (R8, R75). -/
theorem mask32_mod (v : Nat) : mask32 (v % 2 ^ 32) = mask32 v := by
  apply BitVec.eq_of_toNat_eq
  rw [mask32_toNat, mask32_toNat, Nat.mod_mod]

end Sys2Proof.Machine

open Sys2Proof.Machine

/-- Settles O31: the outcome of a WRITE depends on the written value only through `mask32`. -/
theorem wideValuesAreCutFirst : Obligations.WideValuesAreCutFirst := by
  intro o v s
  rw [exec_dispatch_write, exec_dispatch_write, mask32_mod]
end

section
/-!
PROOF. The outcome of every request in one equation (R64, R90, R100, R105), and what it says of single
cells: the frame rule O29, O30 about CFGR, and O14 about the reset state.
-/

namespace Sys2Proof.Machine

/-- The state after one request is served: INIT's end state (R90, R91), READ's answer (R100), or the store
of a WRITE (R105). -/
def State.afterRequest (s : State) : Req → State
  | .init => { s with rf := State.reset.rf, resp := .none, trace := s.trace ++ [.init] }
  | .read o => (s.emit (.read o)).respond (.value (s.cell o))
  | .write o v => s.afterWrite o (mask32 v)

/-- INIT's two stores into the zeroed register file, CR and then CFGR, leave HSI on and ready alone: its
SWS is 0 already, and a cell that holds 0 is not listed (R90, R91). -/
theorem init_rf (s : State) :
    ((s.zeroAll.setCell Reg.cr.offset
      (s.zeroAll.reg .cr ||| hsiOnReady)).applySwsFromSw).rf = State.reset.rf := by
  have hclosed : (RegFile.put [] 0x00 (0 ||| hsiOnReady)).put 0x08
      (cfgrNext 0 (0 ||| hsiOnReady)) = State.reset.rf := by decide
  simpa [setCell_cell, reg_eq] using hclosed

theorem execInit_eq (s : State) : execInit s = .next (s.afterRequest .init) := by
  simp only [execInit, State.afterRequest, State.emit, State.respond, init_rf]
  rfl

/-- Every request completes, in the state `afterRequest` gives (R170). -/
theorem exec_dispatch (q : Req) (s : State) : exec (dispatch q) s = .next (s.afterRequest q) := by
  cases q with
  | init => exact execInit_eq s
  | read o => rfl
  | write o v => exact exec_dispatch_write o v s

theorem eq_afterRequest {q : Req} {s t : State} (h : exec (dispatch q) s = .next t) :
    t = s.afterRequest q := by
  rw [exec_dispatch] at h
  cases h
  rfl

/-! ### The cells after a request -/

theorem afterWrite_cell (s : State) (o p : Nat) (v : Word) :
    (s.afterWrite o v).cell p = if p = o then storedWord (s.cell 0x00) o v else s.cell p := by
  rw [State.afterWrite, respond_cell, setCell_cell, emit_cell]

@[simp] theorem afterRequest_init_cell (s : State) (p : Nat) :
    (s.afterRequest .init).cell p = State.reset.cell p := rfl

@[simp] theorem afterRequest_read_cell (s : State) (o p : Nat) :
    (s.afterRequest (.read o)).cell p = s.cell p := rfl

theorem afterRequest_write_cell (s : State) (o v p : Nat) :
    (s.afterRequest (.write o v)).cell p =
      if p = o then storedWord (s.cell 0x00) o (mask32 v) else s.cell p :=
  afterWrite_cell s o p (mask32 v)

/-- A request that does not touch a cell leaves it as it is (R13, R64). -/
theorem afterRequest_cell_of_not_touches {q : Req} {o : Nat} (h : q.touches o = false) (s : State) :
    (s.afterRequest q).cell o = s.cell o := by
  cases q with
  | init => simp [Req.touches] at h
  | read p => rfl
  | write p v =>
    have hne : o ≠ p := fun e => by simp [Req.touches, e] at h
    rw [afterRequest_write_cell, if_neg hne]

/-- A well-formed operation is the one its own request selects (R76). -/
theorem dispatch_toReq {i : Instr} (h : wellFormed i = true) : dispatch (toReq i) = i := by
  cases i with
  | writeOther off value => exact Laws.RequestRoundTrip.writeOther off value h
  | _ => rfl

end Sys2Proof.Machine

open Sys2Proof Sys2Proof.Machine

/-- Settles O29, by the kind of the request. -/
theorem frameOfEveryRequest : Obligations.FrameOfEveryRequest := by
  intro q s t h
  rw [eq_afterRequest h]
  cases q with
  | init => exact afterRequest_init_cell s
  | read o => rfl
  | write o v =>
    intro p hp
    rw [afterRequest_write_cell, if_neg hp]

/-- Settles O30: the operation is the one its request selects, a request that does not touch CFGR leaves
it alone, and those that do are INIT and the WRITEs at 0x08. -/
theorem cfgrChangesOnlyByInitOrCfgrWrite : Obligations.CfgrChangesOnlyByInitOrCfgrWrite := by
  intro i s t hwf hexec hchange
  have hi : dispatch (toReq i) = i := dispatch_toReq hwf
  have htouch : (toReq i).touches 0x08 = true := by
    by_contra hno
    rw [← hi] at hexec
    refine hchange ?_
    rw [eq_afterRequest hexec, afterRequest_cell_of_not_touches (by simpa using hno)]
  cases hq : toReq i with
  | init => exact .inl (by rw [← hi, hq]; rfl)
  | read o => simp [hq, Req.touches] at htouch
  | write o v =>
    obtain rfl : o = 0x08 := by simpa [hq, Req.touches] using htouch
    exact .inr ⟨v, by rw [← hi, hq]; rfl⟩

/-- Settles O14: INIT's outcome at power-on, and the empty register file reads 0 everywhere (R46). -/
theorem resetIsInitAtPowerOn : Obligations.ResetIsInitAtPowerOn :=
  ⟨exec_dispatch .init State.powerOn, RegFile.get_nil⟩
end

section
/-!
PROOF. A run of requests as a fold of `afterRequest` (R60), and the statements about runs: O36, O40 and
the refinement of the total register file, O37.
-/

namespace Sys2Proof.Machine

/-! ### A run of requests -/

/-- The host's list has no influence on what a request does. -/
theorem afterRequest_with_host (s : State) (es : List HostEvent) (q : Req) :
    ({ s with host := es } : State).afterRequest q = { s.afterRequest q with host := es } := by
  cases q <;> rfl

theorem step_desc (s : State) (q : Req) (later : List HostEvent) :
    step { s with host := .desc q :: later } = .next { s.afterRequest q with host := later } := by
  rw [stepRunsRequestedOperation _ q later rfl, exec_dispatch, ← afterRequest_with_host]

/-- A run of requests always completes, in the state the requests make one after the other (R60). -/
theorem afterRequests_eq (qs : List Req) (s : State) :
    afterRequests qs s = .next { qs.foldl State.afterRequest s with host := [] } := by
  induction qs generalizing s with
  | nil => rfl
  | cons q qs ih => exact (run_succ_of_next (step_desc s q _) _).trans (ih (s.afterRequest q))

theorem foldl_afterRequest_cell_of_not_touches {qs : List Req} {o : Nat}
    (h : ∀ q ∈ qs, q.touches o = false) (s : State) :
    (qs.foldl State.afterRequest s).cell o = s.cell o := by
  induction qs generalizing s with
  | nil => rfl
  | cons q qs ih =>
    obtain ⟨hq, hqs⟩ := List.forall_mem_cons.mp h
    exact (ih hqs _).trans (afterRequest_cell_of_not_touches hq s)

/-! ### Two states side by side -/

/-- The states agree on CR and on the cell at `o`. -/
def AgreeOnCrAnd (o : Nat) (s s' : State) : Prop :=
  s.cell 0x00 = s'.cell 0x00 ∧ s.cell o = s'.cell o

/-- What a request leaves in a cell is a function of the request, that cell and CR (R107). -/
theorem afterRequest_cell_congr {o : Nat} {s s' : State} (h : AgreeOnCrAnd o s s') (q : Req) :
    (s.afterRequest q).cell o = (s'.afterRequest q).cell o := by
  obtain ⟨hcr, ho⟩ := h
  cases q with
  | init => rfl
  | read p => exact ho
  | write p v => rw [afterRequest_write_cell, afterRequest_write_cell, hcr, ho]

theorem AgreeOnCrAnd.afterRequest {o : Nat} {s s' : State} (h : AgreeOnCrAnd o s s') (q : Req) :
    AgreeOnCrAnd o (s.afterRequest q) (s'.afterRequest q) :=
  ⟨afterRequest_cell_congr ⟨h.1, h.1⟩ q, afterRequest_cell_congr h q⟩

/-! ### The bits a WRITE stores -/

/-- SWS replaced by the bits it holds: nothing changes. -/
theorem withSws_swsOf (c : Word) : withSws c (swsOf c) = c := by
  apply BitVec.eq_of_getLsbD_eq
  intro i _
  simp only [withSws_bit, swsOf_bit]
  split_ifs with h2 h3
  · rw [h2]; rfl
  · rw [h3]; rfl
  · rfl

/-- SWS replaced by SW, bit by bit. -/
theorem withSws_swOf_bit (c : Word) (i : Nat) :
    (withSws c (swOf c)).getLsbD i = c.getLsbD (if i = 2 ∨ i = 3 then i - 2 else i) := by
  simp only [withSws_bit, swOf_bit]
  rcases eq_or_ne i 2 with rfl | h2
  · rfl
  rcases eq_or_ne i 3 with rfl | h3
  · rfl
  · simp only [h2, h3, or_self, if_false]

/-- A CFGR store in the two cases of the decision table: SWS follows SW when the source SW names is ready
(rows 1 to 4 of R155). -/
theorem cfgrNext_of_ready {c cr : Word} (h : sourceReady cr (c.toNat % 4) = true) :
    cfgrNext c cr = withSws c (swOf c) := by
  rw [cfgrNext, swsNext_eq, if_pos h]

/-- The hold case (row 5 of R155, conflict C1): the value is stored as written. -/
theorem cfgrNext_of_not_ready {c cr : Word} (h : sourceReady cr (c.toNat % 4) = false) :
    cfgrNext c cr = c := by
  rw [cfgrNext, swsNext_eq, if_neg (by simp [h]), withSws_swsOf]

/-- The bit-level reading of the decision table asks for the same ready flag as the machine's. -/
theorem honours_bitsOf (s : State) (v : Nat) :
    (bitsOf s).honours v = sourceReady (s.cell 0x00) ((mask32 v).toNat % 4) := by
  have hmod : (mask32 v).toNat % 4 = v % 4 := by
    rw [mask32_toNat]
    omega
  rw [hmod]
  unfold BitFile.honours sourceReady
  split <;> rfl

/-- `cr_store` as a choice of the written bit (R110). -/
theorem crStore_bit_eq_source (v : Word) (i : Nat) :
    (crStore v).getLsbD i =
      v.getLsbD (if i = 10 then 8 else if i = 17 then 16 else if i = 25 then 24 else i) := by
  rw [crStore_bit]
  rcases eq_or_ne i 10 with rfl | h10
  · rfl
  rcases eq_or_ne i 17 with rfl | h17
  · rfl
  · rw [if_neg h10, if_neg h17, if_neg h10, if_neg h17, apply_ite v.getLsbD]

/-- `crrcr_store` as a choice of the written bit (R130). -/
theorem crrcrStore_bit_eq_source (v : Word) (i : Nat) :
    (crrcrStore v).getLsbD i = v.getLsbD (if i = 1 then 0 else i) := by
  rw [crrcrStore_bit, apply_ite v.getLsbD]

/-- `cfgr_store` as a choice of the written bit (R120). -/
theorem cfgrNext_bit_eq_source (c cr : Word) (i : Nat) :
    (cfgrNext c cr).getLsbD i =
      c.getLsbD (if sourceReady cr (c.toNat % 4) = true ∧ (i = 2 ∨ i = 3) then i - 2 else i) := by
  cases h : sourceReady cr (c.toNat % 4) with
  | true => simp only [cfgrNext_of_ready h, withSws_swOf_bit, true_and]
  | false => simp only [cfgrNext_of_not_ready h, Bool.false_eq_true, false_and, if_false]

/-- Each bit of the word a WRITE stores is the bit of the cut value that `sourceBit` names. -/
theorem storedWord_bit_eq_source (s : State) (o v i : Nat) :
    (storedWord (s.cell 0x00) o (mask32 v)).getLsbD i =
      (mask32 v).getLsbD ((bitsOf s).sourceBit o v i) := by
  unfold storedWord BitFile.sourceBit
  rw [honours_bitsOf]
  by_cases hcr : o = 0x00
  · simpa only [if_pos hcr] using crStore_bit_eq_source _ i
  by_cases hcfgr : o = 0x08
  · simpa only [if_neg hcr, if_pos hcfgr] using cfgrNext_bit_eq_source _ _ i
  by_cases hcrrcr : o = 0x98
  · simpa only [if_neg hcr, if_neg hcfgr, if_pos hcrrcr] using crrcrStore_bit_eq_source _ i
  · simp only [if_neg hcr, if_neg hcfgr, if_neg hcrrcr]

/-- The bit a stored bit comes from lies in the word when it does. -/
theorem sourceBit_lt (rf : BitFile) (o v : Nat) {i : Nat} (hi : i < 32) :
    rf.sourceBit o v i < 32 := by
  unfold BitFile.sourceBit
  split_ifs <;> omega

/-- What a WRITE stores, bit by bit, is what the total function's reading of the rules gives (R105,
R109). -/
theorem storedWord_bit (s : State) (o v i : Nat) :
    (storedWord (s.cell 0x00) o (mask32 v)).getLsbD i = storedBit (bitsOf s) o v i := by
  unfold storedBit
  by_cases hi : i < 32
  · rw [storedWord_bit_eq_source, mask32_bit, decide_eq_true (sourceBit_lt _ o v hi),
      decide_eq_true hi]
  · rw [BitVec.getLsbD_of_ge _ _ (by omega), decide_eq_false hi, Bool.false_and]

/-- The reset state's only set bits are HSION and HSIRDY (R45). -/
theorem reset_cell_bit (o i : Nat) :
    (State.reset.cell o).getLsbD i = decide (o = 0x00 ∧ (i = 8 ∨ i = 10)) := by
  by_cases ho : o = 0x00
  · subst ho
    by_cases hi : i < 32
    · have hbits : ∀ j < 32, (State.reset.cell 0x00).getLsbD j = decide (j = 8 ∨ j = 10) := by
        decide
      simpa using hbits i hi
    · have hne : ¬ (i = 8 ∨ i = 10) := by omega
      rw [BitVec.getLsbD_of_ge _ _ (by omega)]
      simp [hne]
  · have hcell : State.reset.cell o = 0 := if_neg ho
    simp [hcell, ho]

/-- One request of the machine is one request on the total function: the commuting square of the
refinement. -/
theorem bitsOf_afterRequest (s : State) (q : Req) :
    bitsOf (s.afterRequest q) = (bitsOf s).after q := by
  cases q with
  | init => exact funext₂ reset_cell_bit
  | read o => rfl
  | write o v =>
    funext p i
    simp only [bitsOf, BitFile.after, afterRequest_write_cell]
    split
    · exact storedWord_bit s o v i
    · rfl

end Sys2Proof.Machine

open Sys2Proof Sys2Proof.Machine

/-- Settles O37: every request commutes with the view of the state as a total function, so the fold over
the requests does too. -/
theorem runsRefineTheTotalRegisterFile : Obligations.RunsRefineTheTotalRegisterFile := by
  intro qs s
  refine ⟨_, afterRequests_eq qs s, ?_⟩
  exact (List.foldl_hom bitsOf fun t q => (bitsOf_afterRequest t q).symm).symm

/-- Settles O36: no request of the run touches the cell, and the READ at the end answers it. -/
theorem untouchedCellIsReadBack : Obligations.UntouchedCellIsReadBack := by
  intro qs o s h
  have hcell : (qs.foldl State.afterRequest s).cell o = s.cell o :=
    foldl_afterRequest_cell_of_not_touches h s
  refine ⟨_, afterRequests_eq _ s, ?_, ?_⟩
  · rw [List.foldl_concat, ← hcell]
    rfl
  · rw [List.foldl_concat, ← hcell]
    rfl

/-- Settles O40: each request keeps the agreement on CR and on the cell. -/
theorem cellsDependOnlyOnThemselvesAndCr : Obligations.CellsDependOnlyOnThemselvesAndCr := by
  intro qs o s s' hcr ho
  have hagree : AgreeOnCrAnd o (qs.foldl State.afterRequest s) (qs.foldl State.afterRequest s') :=
    List.foldl_rel ⟨hcr, ho⟩ fun q _ _ _ h => h.afterRequest q
  exact ⟨_, _, afterRequests_eq qs s, afterRequests_eq qs s', hagree⟩
end

section
/-!
PROOF. The invariants of 10_state.md section 4 and of R165: O44 about the two start states, O45 about one
step, O46 about runs.
-/

namespace Sys2Proof.Machine

/-! ### The invariants of single words -/

/-- The ready bits `cr_store` forces equal the enable bits it stores (R40, R110). -/
theorem crStore_readyTracksEnable (v : Word) :
    (crStore v).getLsbD 10 = (crStore v).getLsbD 8 ∧
      (crStore v).getLsbD 17 = (crStore v).getLsbD 16 ∧
      (crStore v).getLsbD 25 = (crStore v).getLsbD 24 := by
  simp only [crStore_bit_eq_source]
  exact ⟨rfl, rfl, rfl⟩

/-- HSI48RDY as `crrcr_store` forces it equals HSI48ON (R41, R130). -/
theorem crrcrStore_hsi48TracksEnable (v : Word) :
    (crrcrStore v).getLsbD 1 = (crrcrStore v).getLsbD 0 := by
  simp only [crrcrStore_bit_eq_source]
  rfl

/-- SW of a CFGR value with SWS replaced (R155). -/
theorem swOf_withSws (c : Word) (sws : BitVec 2) : swOf (withSws c sws) = swOf c := by
  apply BitVec.eq_of_getLsbD_eq
  intro i hi
  have h2 : i ≠ 2 := by omega
  have h3 : i ≠ 3 := by omega
  rw [swOf_bit, swOf_bit, withSws_bit, if_neg h2, if_neg h3]

/-- SWS of a CFGR value with SWS replaced (R155). -/
theorem swsOf_withSws (c : Word) (sws : BitVec 2) : swsOf (withSws c sws) = sws := by
  apply BitVec.eq_of_getLsbD_eq
  intro i hi
  rw [swsOf_bit, withSws_bit]
  obtain rfl | rfl : i = 0 ∨ i = 1 := by omega
  · rfl
  · rfl

/-- A CFGR store with SW = 3 leaves SW and SWS at 3, since MSI is always ready (R124, R165). -/
theorem cfgrNext_msiHonoured (c cr : Word) (h : swOf (cfgrNext c cr) = 3) :
    swsOf (cfgrNext c cr) = 3 := by
  have hsw : swOf c = 3 := (swOf_withSws c _).symm.trans h
  have hready : sourceReady cr (c.toNat % 4) = true := by rw [← swOf_toNat, hsw]; rfl
  rw [cfgrNext_of_ready hready, swsOf_withSws, hsw]

/-! ### The invariants of a state -/

theorem afterWrite_reg (s : State) (o : Nat) (v : Word) (r : Reg) :
    (s.afterWrite o v).reg r =
      if r.offset = o then storedWord (s.cell 0x00) r.offset v else s.reg r := by
  rw [reg_eq, afterWrite_cell, reg_eq]
  split
  · next h => rw [h]
  · rfl

/-- The invariants speak of the register file alone. -/
theorem stateInv_of_rf_eq {s t : State} (h : t.rf = s.rf) (hs : StateInv s) : StateInv t := by
  simpa only [StateInv, readyTracksEnable, hsi48TracksEnable, msiHonoured, reg_eq, cell_eq, h] using hs

/-- Every WRITE keeps the invariants: the register an invariant speaks of is stored by its own rule or
not at all. -/
theorem stateInv_afterWrite {s : State} (hs : StateInv s) (o : Nat) (v : Word) :
    StateInv (s.afterWrite o v) := by
  obtain ⟨hwf, hcr, hcrrcr, hcfgr⟩ := hs
  refine ⟨RegFile.wf_put hwf o _, ?_, ?_, ?_⟩
  · rw [readyTracksEnable, afterWrite_reg]
    split
    · exact crStore_readyTracksEnable v
    · exact hcr
  · rw [hsi48TracksEnable, afterWrite_reg]
    split
    · exact crrcrStore_hsi48TracksEnable v
    · exact hcrrcr
  · rw [msiHonoured, afterWrite_reg]
    split
    · exact cfgrNext_msiHonoured v _
    · exact hcfgr

theorem stateInv_reset : StateInv State.reset := by decide

theorem stateInv_powerOn : StateInv State.powerOn := by decide

theorem stateInv_afterRequest {s : State} (hs : StateInv s) (q : Req) :
    StateInv (s.afterRequest q) := by
  cases q with
  | init => exact stateInv_of_rf_eq (s := State.reset) rfl stateInv_reset
  | read o => exact stateInv_of_rf_eq (s := s) rfl hs
  | write o v => exact stateInv_afterWrite hs o (mask32 v)

/-! ### Steps and runs -/

theorem step_of_request_error {s : State} {e : HostEvent} {later : List HostEvent} {r : Refusal}
    (hs : s.host = e :: later) (hr : HostEvent.request e = .error r) : step s = .refused r := by
  unfold step
  rw [hs]
  simp only [hr]

/-- Everything one step can do to the register file: nothing, or what one request does (R5, R13). -/
theorem rf_of_step {s t : State} (h : step s = .next t) :
    t.rf = s.rf ∨ ∃ q, t.rf = (s.afterRequest q).rf := by
  cases hs : s.host with
  | nil =>
    rw [step_of_host_nil hs] at h
    cases h
    exact .inl rfl
  | cons e later =>
    cases hq : HostEvent.request e with
    | error r => simp [step_of_request_error hs hq] at h
    | ok q =>
      rw [step_of_request hs hq, exec_dispatch, afterRequest_with_host] at h
      cases h
      exact .inr ⟨q, rfl⟩

/-- What every step keeps holds at the end of every run that starts with it. -/
theorem run_keeps {P : State → Prop} (hstep : ∀ s t, P s → step s = .next t → P t) {k : Nat}
    {s t : State} (hs : P s) (h : Host.Core.run Sys2Proof.core k s = .next t) : P t := by
  induction k generalizing s with
  | zero =>
    cases h
    exact hs
  | succ k ih =>
    obtain ⟨s', hs', hrun⟩ := next_of_run_succ h
    exact ih (hstep s s' hs hs') hrun

end Sys2Proof.Machine

open Sys2Proof Sys2Proof.Machine

/-- Settles O44, by evaluating the two register files. -/
theorem startStatesMeetInvariants : Obligations.StartStatesMeetInvariants :=
  ⟨stateInv_reset, stateInv_powerOn⟩

/-- Settles O45: a step leaves the register file alone or serves one request, and every request keeps the
invariants. -/
theorem stepKeepsInvariants : Obligations.StepKeepsInvariants := by
  intro s t hs h
  rcases rf_of_step h with hrf | ⟨q, hrf⟩
  · exact stateInv_of_rf_eq hrf hs
  · exact stateInv_of_rf_eq hrf (stateInv_afterRequest hs q)

/-- Settles O46: the power-on state meets the invariants whatever the host is to ask, and steps keep
them. -/
theorem reachableStatesMeetInvariants : Obligations.ReachableStatesMeetInvariants := by
  intro k plan t h
  have hstart : StateInv { State.powerOn with host := plan } :=
    stateInv_of_rf_eq (s := State.powerOn) rfl stateInv_powerOn
  obtain ⟨-, hinv⟩ := run_keeps stepKeepsInvariants hstart h
  exact hinv
end

section
/-!
PROOF. O47: the reachable combinations of SW, SWS and the ready bits. A CFGR write while no source is
ready stores SW and SWS as written, and a later CR write sets the ready bits and leaves CFGR alone (R113).
-/

namespace Sys2Proof.Machine

/-- The CFGR value with the given SW and SWS. -/
def cfgrWith (sw sws : BitVec 2) : Nat := sw.toNat + 4 * sws.toNat

theorem cfgrWith_fields (sw sws : BitVec 2) :
    swOf (mask32 (cfgrWith sw sws)) = sw ∧ swsOf (mask32 (cfgrWith sw sws)) = sws := by
  revert sw sws
  decide

/-- The CR value with HSION, HSEON and PLLON as given. -/
def crWith (hsi hse pll : Bool) : Nat :=
  hsi.toNat * 2 ^ 8 + hse.toNat * 2 ^ 16 + pll.toNat * 2 ^ 24

theorem crStore_crWith (hsi hse pll : Bool) :
    (crStore (mask32 (crWith hsi hse pll))).getLsbD 10 = hsi ∧
      (crStore (mask32 (crWith hsi hse pll))).getLsbD 17 = hse ∧
      (crStore (mask32 (crWith hsi hse pll))).getLsbD 25 = pll := by
  revert hsi hse pll
  decide

/-- With CR at 0 no source but MSI is ready. -/
theorem sourceReady_zero {sw : BitVec 2} (h : sw ≠ 3#2) : sourceReady 0 sw.toNat = false := by
  revert sw
  decide

/-- The two requests: CFGR first, then CR. -/
def cfgrThenCr (sw sws : BitVec 2) (hsi hse pll : Bool) : List Req :=
  [.write 0x08 (cfgrWith sw sws), .write 0x00 (crWith hsi hse pll)]

theorem cfgrThenCr_cfgr {sw : BitVec 2} (h : sw ≠ 3#2) (sws : BitVec 2) (hsi hse pll : Bool) :
    ((cfgrThenCr sw sws hsi hse pll).foldl State.afterRequest State.powerOn).cell 0x08 =
      mask32 (cfgrWith sw sws) := by
  have hnotReady : sourceReady 0 ((mask32 (cfgrWith sw sws)).toNat % 4) = false := by
    rw [← swOf_toNat, (cfgrWith_fields sw sws).1]
    exact sourceReady_zero h
  simp only [cfgrThenCr, List.foldl_cons, List.foldl_nil]
  rw [afterRequest_write_cell, if_neg (by decide), afterRequest_write_cell, if_pos rfl]
  exact cfgrNext_of_not_ready hnotReady

theorem cfgrThenCr_cr (sw sws : BitVec 2) (hsi hse pll : Bool) :
    ((cfgrThenCr sw sws hsi hse pll).foldl State.afterRequest State.powerOn).cell 0x00 =
      crStore (mask32 (crWith hsi hse pll)) := by
  simp only [cfgrThenCr, List.foldl_cons, List.foldl_nil]
  rw [afterRequest_write_cell, if_pos rfl]
  rfl

end Sys2Proof.Machine

open Sys2Proof Sys2Proof.Machine

/-- Settles O47: from power-on, one CFGR write in the hold case and one CR write. -/
theorem everySwsCombinationIsReachable : Obligations.EverySwsCombinationIsReachable := by
  intro sw sws hsi hse pll hsw
  obtain ⟨hswOf, hswsOf⟩ := cfgrWith_fields sw sws
  have hcfgr := cfgrThenCr_cfgr hsw sws hsi hse pll
  have hready := crStore_crWith hsi hse pll
  rw [← cfgrThenCr_cr sw sws] at hready
  rw [← hcfgr] at hswOf hswsOf
  exact ⟨cfgrThenCr sw sws hsi hse pll, _, afterRequests_eq _ State.powerOn, hswOf, hswsOf, hready⟩
end

section
/-!
PROOF. O48: the canonical form is determined by what is read, because a cell is listed exactly when it does
not read 0 (R10, R11).
-/

namespace Sys2Proof.Machine

theorem RegFile.get_of_absent {rf : RegFile} {o : Nat} (h : ∀ c ∈ rf, c.1 ≠ o) : rf.get o = 0 := by
  rw [← RegFile.erase_of_absent h, RegFile.get_erase_self]

/-- In a canonical register file an entry is listed exactly when it is what its offset reads as, and not
0. -/
theorem RegFile.Wf.mem_iff {rf : RegFile} (h : rf.Wf) (c : Nat × Word) :
    c ∈ rf ↔ rf.get c.1 = c.2 ∧ c.2 ≠ 0 := by
  obtain ⟨hsorted, hlisted⟩ := h
  induction rf with
  | nil =>
    simp only [List.not_mem_nil, RegFile.get_nil, false_iff]
    rintro ⟨h0, hne⟩
    exact hne h0.symm
  | cons d rf ih =>
    obtain ⟨o, v⟩ := c
    obtain ⟨k, x⟩ := d
    obtain ⟨hrising, htail⟩ := List.pairwise_cons.mp hsorted
    obtain ⟨hx, hrest⟩ := List.forall_mem_cons.mp hlisted
    rw [List.mem_cons, RegFile.get_cons, ih htail hrest, Prod.mk.injEq]
    split
    · next hok =>
      have habsent : RegFile.get rf o = 0 := RegFile.get_of_absent fun c hc hco =>
        absurd (hrising c hc) (Nat.not_lt.mpr (hco.trans hok).le)
      rw [habsent]
      constructor
      · rintro (⟨-, rfl⟩ | ⟨h0, hne⟩)
        · exact ⟨rfl, hx⟩
        · exact absurd h0.symm hne
      · rintro ⟨rfl, -⟩
        exact .inl ⟨hok, rfl⟩
    · next hok => simp [hok]

end Sys2Proof.Machine

open Sys2Proof Sys2Proof.Machine

/-- Settles O48: both lists hold the same entries in rising order. -/
theorem canonicalRegisterFilesAreEqualWhenReadsAgree :
    Obligations.CanonicalRegisterFilesAreEqualWhenReadsAgree := by
  intro a b ha hb hget
  have hmem : ∀ c, c ∈ a ↔ c ∈ b := fun c => by rw [ha.mem_iff, hb.mem_iff, hget]
  have hasymm : Std.Asymm fun c d : Nat × Word => c.1 < d.1 := ⟨fun _ _ => Nat.lt_asymm⟩
  exact ha.1.eq_of_mem_iff hb.1 hmem
end

section
/-!
PROOF. Two requests in a row at one offset: the same WRITE twice, which is O33, and a READ right after a
WRITE, which at the three specially interpreted offsets is O35, with the closed forms of R110, R120 and
R130.
-/

namespace Sys2Proof.Machine

/-! ### The same WRITE twice -/

/-- What a WRITE stores is not changed by that WRITE: at CR the store rule does not look at CR, and at
every other offset CR is another cell (R107). -/
theorem storedWord_afterWrite_cr (s : State) (o : Nat) (v : Word) :
    storedWord ((s.afterWrite o v).cell 0x00) o v = storedWord (s.cell 0x00) o v := by
  rcases eq_or_ne o 0x00 with rfl | hne
  · rfl
  · rw [afterWrite_cell, if_neg hne.symm]

/-- The second of two equal WRITEs stores the same word over itself (R58). -/
theorem afterWrite_afterWrite_rf (s : State) (o : Nat) (v : Word) :
    ((s.afterWrite o v).afterWrite o v).rf = (s.afterWrite o v).rf := by
  calc ((s.afterWrite o v).afterWrite o v).rf
      = (s.afterWrite o v).rf.put o (storedWord ((s.afterWrite o v).cell 0x00) o v) := rfl
    _ = (s.rf.put o (storedWord (s.cell 0x00) o v)).put o (storedWord (s.cell 0x00) o v) := by
        rw [storedWord_afterWrite_cr]; rfl
    _ = (s.afterWrite o v).rf := RegFile.put_put _ _ _ _

/-! ### A READ right after a WRITE -/

/-- The READ answers what the WRITE stored, at every offset (R60, R61). -/
theorem afterRequests_write_read (o v : Nat) (s : State) :
    ∃ t, afterRequests [.write o v, .read o] s = .next t ∧
      t.resp = .value (storedWord (s.cell 0x00) o (mask32 v)) := by
  refine ⟨_, afterRequests_eq _ s, congrArg Resp.value ?_⟩
  exact (afterRequest_write_cell s o v o).trans (if_pos rfl)

/-! ### The closed forms -/

/-- Bits picked by a mask and moved up: the moved mask picks the bits the value holds `n` places below. -/
theorem and_shiftLeft_bit (v m : Word) (n i : Nat) :
    ((v &&& m) <<< n).getLsbD i = ((m <<< n).getLsbD i && v.getLsbD (i - n)) := by
  rw [BitVec.getLsbD_shiftLeft, BitVec.getLsbD_shiftLeft, BitVec.getLsbD_and,
    Bool.and_comm (v.getLsbD _), ← Bool.and_assoc]

/-- Bits cleared by a mask. -/
theorem and_not_bit (v m : Word) {i : Nat} (hi : i < 32) :
    (v &&& ~~~m).getLsbD i = (v.getLsbD i && !m.getLsbD i) := by
  rw [BitVec.getLsbD_and, BitVec.getLsbD_not, decide_eq_true hi, Bool.true_and]

/-- The closed form of R110: the ready bits are cleared, bits 16 and 24 move up by one and bit 8 by
two. -/
theorem crStore_eq_closed (v : Word) : crStore v = crStoreClosed v := by
  apply BitVec.eq_of_getLsbD_eq
  intro i hi
  have hcleared : (0x02020400#32).getLsbD i = decide (i = 10 ∨ i = 17 ∨ i = 25) := by
    revert i; decide
  have hbyOne : ((0x01010100#32 <<< 1).getLsbD i && (0x02020000#32).getLsbD i) =
      decide (i = 17 ∨ i = 25) := by
    revert i; decide
  have hbyTwo : (0x00000100#32 <<< 2).getLsbD i = decide (i = 10) := by
    revert i; decide
  rw [crStore_bit, crStoreClosed, BitVec.getLsbD_or, BitVec.getLsbD_or, and_not_bit v _ hi,
    BitVec.getLsbD_and, and_shiftLeft_bit, and_shiftLeft_bit, Bool.and_right_comm, hcleared, hbyOne,
    hbyTwo]
  rcases eq_or_ne i 10 with rfl | h10
  · simp
  rcases eq_or_ne i 17 with rfl | h17
  · simp
  rcases eq_or_ne i 25 with rfl | h25
  · simp
  · simp [h10, h17, h25]

/-- The closed form of R130: HSI48RDY is cleared and HSI48ON moves up by one. -/
theorem crrcrStore_eq_closed (v : Word) : crrcrStore v = crrcrStoreClosed v := by
  apply BitVec.eq_of_getLsbD_eq
  intro i hi
  have hcleared : (0x00000002#32).getLsbD i = decide (i = 1) := by revert i; decide
  have hmoved : (0x00000001#32 <<< 1).getLsbD i = decide (i = 1) := by revert i; decide
  rw [crrcrStore_bit, crrcrStoreClosed, BitVec.getLsbD_or, and_not_bit v _ hi, and_shiftLeft_bit,
    hcleared, hmoved]
  rcases eq_or_ne i 1 with rfl | h1
  · simp
  · simp [h1]

/-- SWS replaced by SW as one masked sum (R120): bits 3:2 are cleared and bits 1:0 move up by two. -/
theorem withSws_swOf_eq_closed (v : Word) :
    withSws v (swOf v) = (v &&& ~~~0x0000000C#32) ||| ((v &&& 0x00000003#32) <<< 2) := by
  apply BitVec.eq_of_getLsbD_eq
  intro i hi
  have hcleared : (0x0000000C#32).getLsbD i = decide (i = 2 ∨ i = 3) := by revert i; decide
  have hmoved : (0x00000003#32 <<< 2).getLsbD i = decide (i = 2 ∨ i = 3) := by revert i; decide
  rw [withSws_swOf_bit, BitVec.getLsbD_or, and_not_bit v _ hi, and_shiftLeft_bit, hcleared, hmoved]
  by_cases h : i = 2 ∨ i = 3
  · simp [h]
  · simp [h]

/-- The closed form of R120, in the two cases of the decision table (R155; the hold case is conflict
C1). -/
theorem cfgrNext_eq_closed (v cr : Word) : cfgrNext v cr = cfgrStoreClosed v cr := by
  have hsw : cfgrStoreClosed v cr =
      if sourceReady cr (v.toNat % 4) = true then withSws v (swOf v) else v := by
    rw [withSws_swOf_eq_closed]; rfl
  rw [hsw]
  split
  · next hready => exact cfgrNext_of_ready hready
  · next hnot => exact cfgrNext_of_not_ready (by simpa using hnot)

end Sys2Proof.Machine

open Sys2Proof Sys2Proof.Machine

/-- Settles O33: both WRITEs store the same word, and the second store overwrites the first. -/
theorem writesAreIdempotent : Obligations.WritesAreIdempotent := by
  intro o v s t u ht hu
  rw [eq_afterRequest hu, eq_afterRequest ht]
  exact afterWrite_afterWrite_rf s o (mask32 v)

/-- Settles O35: the READ answers the stored word, which is the closed form of each store rule. -/
theorem readYourTransformedWrite : Obligations.ReadYourTransformedWrite := by
  intro v s
  have hcr := afterRequests_write_read 0x00 v s
  have hcfgr := afterRequests_write_read 0x08 v s
  have hcrrcr := afterRequests_write_read 0x98 v s
  refine ⟨?_, ?_, ?_⟩
  · rwa [← mask32, ← crStore_eq_closed]
  · rwa [← mask32, ← cfgrNext_eq_closed]
  · rwa [← mask32, ← crrcrStore_eq_closed]
end

section
/-!
PROOF. The host processor's bus accesses (R54, R65), which are O11 and O12, and the cells at misaligned
offsets (R55, R56), which is O27.
-/

namespace Sys2Proof.Machine

/-! ### The request of a bus access -/

theorem busRequest_of_size_ne {n : Nat} (h : n ≠ 4) (addr : Nat) (mk : Nat → Req) :
    busRequest addr n mk = .error (.accessSize n) := if_pos h

theorem busRequest_in_window {o : Nat} (h : o < Config.rccWindow) (mk : Nat → Req) :
    busRequest (Config.rccBase + o) 4 mk = .ok (mk o) := by
  have hwindow : Config.rccBase ≤ Config.rccBase + o ∧
      Config.rccBase + o < Config.rccBase + Config.rccWindow := by omega
  rw [busRequest, if_neg (by decide), if_pos hwindow, Nat.add_sub_cancel_left]

/-- A bus access makes no request of another kind than its own. -/
theorem busRequest_ne_ok {mk : Nat → Req} {q : Req} (h : ∀ o, mk o ≠ q) (addr n : Nat) :
    busRequest addr n mk ≠ .ok q := by
  unfold busRequest
  split
  · exact nofun
  split
  · exact fun he => h _ (Except.ok.inj he)
  · exact nofun

@[simp] theorem rest_load (addr n : Nat) (r : Resp) : HostEvent.rest (.load addr n) r = [] := rfl
@[simp] theorem rest_store (addr n value : Nat) (r : Resp) :
    HostEvent.rest (.store addr n value) r = [] := rfl

/-- An event that spells a request and leaves nothing to do is that request's descriptor (R65, R70). -/
theorem step_eq_step_desc {s : State} {e : HostEvent} {later : List HostEvent} {q : Req}
    (hs : s.host = e :: later) (hq : HostEvent.request e = .ok q)
    (hrest : ∀ r, HostEvent.rest e r = []) :
    step s = step { s with host := .desc q :: later } := by
  rw [step_of_request hs hq, takeAnswer_of_rest_nil hrest, stepRunsRequestedOperation _ q later rfl]

/-! ### Misaligned offsets -/

/-- Every named offset is a multiple of 4 (R14). -/
theorem not_mem_namedOffsets_of_misaligned {o : Nat} (h : o % 4 ≠ 0) : o ∉ namedOffsets := by
  have haligned : ∀ p ∈ namedOffsets, p % 4 = 0 := by decide
  exact fun ho => h (haligned o ho)

end Sys2Proof.Machine

open Sys2Proof Sys2Proof.Machine

/-- Settles O11: the port has no request for such an access, so the step is refused. -/
theorem otherAccessSizesAreRefused : Obligations.OtherAccessSizesAreRefused := by
  intro s addr n value later hn
  exact ⟨fun hs => step_of_request_error hs (busRequest_of_size_ne hn addr .read),
    fun hs => step_of_request_error hs (busRequest_of_size_ne hn addr fun o => .write o value)⟩

/-- Settles O12: inside the window the access spells READ or WRITE and leaves nothing on the host's
list. -/
theorem busAccessIsReadOrWrite : Obligations.BusAccessIsReadOrWrite := by
  refine ⟨fun s o value later ho => ⟨fun hs => ?_, fun hs => ?_⟩, fun addr n value => ⟨?_, ?_⟩⟩
  · exact step_eq_step_desc hs (busRequest_in_window ho .read) (rest_load _ 4)
  · exact step_eq_step_desc hs (busRequest_in_window ho fun o => .write o value)
      (rest_store _ 4 value)
  · exact busRequest_ne_ok (mk := .read) (fun _ => Req.noConfusion) addr n
  · exact busRequest_ne_ok (mk := fun o => .write o value) (fun _ => Req.noConfusion) addr n

/-- Settles O27: no name is misaligned, so the WRITE is the fallback's plain store (R150). -/
theorem misalignedOffsetIsItsOwnCell : Obligations.MisalignedOffsetIsItsOwnCell := by
  intro o v s ho
  have hother : dispatch (.write o v) = .writeOther o v :=
    dispatchWrite_unnamed (not_mem_namedOffsets_of_misaligned ho) v
  obtain ⟨t, ht, hcell, hframe, -⟩ := writeVerbatim_storesOnly o v s
  refine ⟨hother, t, ?_, hcell, hframe⟩
  rw [hother]
  exact ht
end

section
/-!
PROOF. The decoder and the encoder against each other (R72, R74, R76, R82): every operation is the one its
word decodes to, which is O2, every request is the one its operation stands for, which is O4, and the
other direction O3; with the sample words of O1 and the refusal of kind 3, O10.
-/

namespace Sys2Proof

/-! ### Requests and their operations -/

theorem wellFormed_writeOther_iff {o v : Nat} :
    wellFormed (.writeOther o v) = true ↔ o ∉ namedOffsets := by
  simp [wellFormed]

theorem dispatch_wellFormed (q : Req) : wellFormed (dispatch q) = true := by
  cases q with
  | init => rfl
  | read o => rfl
  | write o v =>
    by_cases ho : o ∈ namedOffsets
    · exact (dispatchWrite_named ho v).1
    · rw [dispatch, dispatchWrite_unnamed ho]
      exact wellFormed_writeOther_iff.mpr ho

/-- The request that stands for the operation a request selects is that request (R76). -/
theorem toReq_dispatch (q : Req) : toReq (dispatch q) = q := by
  cases q with
  | init => rfl
  | read o => rfl
  | write o v =>
    by_cases ho : o ∈ namedOffsets
    · exact (dispatchWrite_named ho v).2
    · rw [dispatch, dispatchWrite_unnamed ho]
      rfl

/-! ### Requests and their words -/

theorem Req.fits66_read_iff {o : Nat} : (Req.read o).fits66 = true ↔ o < 2 ^ 32 := by
  simp [Req.fits66]

theorem Req.fits66_write_iff {o v : Nat} :
    (Req.write o v).fits66 = true ↔ o < 2 ^ 32 ∧ v < 2 ^ 32 := by
  simp [Req.fits66]

/-- The word of a request carries that request, by the kind of the request (R72, R73, R82). -/
theorem reqOfWord_wordOfReq {q : Req} (h : q.fits66 = true) : reqOfWord (wordOfReq q) = .ok q := by
  cases q with
  | init => exact reqOfWord_init (by decide)
  | read o =>
    obtain ⟨hkind, hoff, -⟩ := word_fields 1 o 0 (Req.fits66_read_iff.mp h) (by decide)
    rw [wordOfReq, ← Nat.add_zero (_ + _), reqOfWord_read hkind, hoff]
  | write o v =>
    obtain ⟨ho, hv⟩ := Req.fits66_write_iff.mp h
    obtain ⟨hkind, hoff, hval⟩ := word_fields 2 o v ho hv
    rw [wordOfReq, Nat.mod_eq_of_lt hv, reqOfWord_write hkind, hoff, hval]

/-- The word of a request fits the layout's 66 bits. -/
theorem wordOfReq_lt {q : Req} (h : q.fits66 = true) : wordOfReq q < 2 ^ 66 := by
  cases q with
  | init => decide
  | read o =>
    have ho := Req.fits66_read_iff.mp h
    rw [wordOfReq]
    omega
  | write o v =>
    obtain ⟨ho, hv⟩ := Req.fits66_write_iff.mp h
    rw [wordOfReq]
    omega

/-- A word carries a request only by one of the three kinds, and the request has the fields that its kind
uses (R72, R73, R74). -/
theorem reqOfWord_eq_ok_cases {w : Nat} {q : Req} (h : reqOfWord w = .ok q) :
    (wordKind w = 0 ∧ q = .init) ∨ (wordKind w = 1 ∧ q = .read (wordOffset w)) ∨
      (wordKind w = 2 ∧ q = .write (wordOffset w) (wordValue w)) := by
  unfold reqOfWord at h
  split at h
  · next hk => exact .inl ⟨hk, (Except.ok.inj h).symm⟩
  · next hk => exact .inr (.inl ⟨hk, (Except.ok.inj h).symm⟩)
  · next hk => exact .inr (.inr ⟨hk, (Except.ok.inj h).symm⟩)
  · cases h

theorem wordOffset_lt (w : Nat) : wordOffset w < 2 ^ 32 := Nat.mod_lt _ (by decide)

theorem wordValue_lt (w : Nat) : wordValue w < 2 ^ 32 := Nat.mod_lt _ (by decide)

/-- A word is put together from its three fields (R72). -/
theorem word_eq_fields (w : Nat) :
    w = wordKind w * 2 ^ 64 + wordOffset w * 2 ^ 32 + wordValue w := by
  unfold wordKind wordOffset wordValue
  omega

/-- A request read from a word fits the layout. -/
theorem fits66_of_reqOfWord {w : Nat} {q : Req} (h : reqOfWord w = .ok q) : q.fits66 = true := by
  rcases reqOfWord_eq_ok_cases h with ⟨-, rfl⟩ | ⟨-, rfl⟩ | ⟨-, rfl⟩
  · rfl
  · exact Req.fits66_read_iff.mpr (wordOffset_lt w)
  · exact Req.fits66_write_iff.mpr ⟨wordOffset_lt w, wordValue_lt w⟩

/-- The word of the request a READ word carries is that word without its value field (R74). -/
theorem wordOfReq_read_fields {w : Nat} (h : wordKind w = 1) :
    wordOfReq (.read (wordOffset w)) = w - wordValue w := by
  have hw := word_eq_fields w
  rw [h] at hw
  rw [wordOfReq]
  omega

/-- The word of the request a WRITE word carries is that word. -/
theorem wordOfReq_write_fields {w : Nat} (h : wordKind w = 2) :
    wordOfReq (.write (wordOffset w) (wordValue w)) = w := by
  have hw := word_eq_fields w
  rw [h] at hw
  rw [wordOfReq, Nat.mod_eq_of_lt (wordValue_lt w), ← hw]

end Sys2Proof

namespace Sys2Proof.Machine

theorem request_word_of_error {w k : Nat} (h : reqOfWord w = .error (.kindNotRequest k)) :
    HostEvent.request (.word w) = .error (.kindNotRequest k) := by
  simp only [HostEvent.request, h]

end Sys2Proof.Machine

open Sys2Proof Sys2Proof.Machine

/-- Settles O2: the operation's word carries its request, which selects it. -/
theorem decodeInvertsEncode : Obligations.DecodeInvertsEncode := by
  intro i hwf hfits
  refine ⟨?_, wordOfReq_lt hfits⟩
  rw [encode, decodeWord_ok (reqOfWord_wordOfReq hfits), dispatch_toReq hwf]

/-- Settles O3: the operation is the one the word's request selects, and by the kind of the word that
request has the word's own fields. -/
theorem encodeInvertsDecodeUpToIgnoredFields : Obligations.EncodeInvertsDecodeUpToIgnoredFields := by
  intro w i h
  obtain ⟨q, hq, rfl⟩ := decodeWord_eq_ok_iff.mp h
  rw [fits66, encode, toReq_dispatch]
  refine ⟨dispatch_wellFormed q, fits66_of_reqOfWord hq, fun hk => ?_, fun hk => ?_, fun hk => ?_⟩
  · obtain rfl := Except.ok.inj ((reqOfWord_init hk).symm.trans hq)
    rfl
  · obtain rfl := Except.ok.inj ((reqOfWord_read hk).symm.trans hq)
    exact wordOfReq_read_fields hk
  · obtain rfl := Except.ok.inj ((reqOfWord_write hk).symm.trans hq)
    exact wordOfReq_write_fields hk

/-- Settles O4, by the kind of the request and whether the offset has a name. -/
theorem requestsSelectTheirOperation : Obligations.RequestsSelectTheirOperation :=
  fun q => ⟨dispatch_wellFormed q, toReq_dispatch q⟩

/-- Settles O1: each of the eight words is read by its kind, and the ninth has none of the three. -/
theorem wordsDecodeAsWritten : Obligations.WordsDecodeAsWritten :=
  ⟨decodeWord_ok (reqOfWord_init rfl), decodeWord_ok (reqOfWord_read rfl),
    decodeWord_ok (reqOfWord_write rfl), decodeWord_ok (reqOfWord_write rfl),
    decodeWord_ok (reqOfWord_write rfl), decodeWord_ok (reqOfWord_write rfl),
    decodeWord_ok (reqOfWord_write rfl), decodeWord_ok (reqOfWord_write rfl),
    decodeWord_error (reqOfWord_other (by decide))⟩

/-- Settles O10: a word of such a kind carries no request, and the refusal keeps the name of the kind. -/
theorem kindThreeIsRefused : Obligations.KindThreeIsRefused := by
  intro s w later hs hk
  exact step_of_request_error hs (request_word_of_error (reqOfWord_other hk))
end

section
/-!
PROOF. O5: the decoder against the operation table (R76, R77). A row's mask keeps the word from some bit
up, so a row matches when those high bits are the row's own; the 18 rows that fix an offset belong to the
18 named registers, in the order of the dispatch.
-/

namespace Sys2Proof

/-! ### Rows and the words that match them -/

/-- The match condition of R77. -/
def OpcodeRow.selects (r : OpcodeRow) (w : BitVec 66) : Bool := w &&& r.mask == r.pattern

theorem selectRow_eq (w : BitVec 66) : selectRow w = opcodeTable.find? fun r => r.selects w := rfl

/-- A mask of all bits from `n` up clears the bits below. -/
theorem toNat_and_highMask (w : BitVec 66) (n : Nat) :
    (w &&& (BitVec.allOnes 66 <<< n)).toNat = w.toNat / 2 ^ n * 2 ^ n := by
  have hshift : w &&& (BitVec.allOnes 66 <<< n) = (w >>> n) <<< n := by
    apply BitVec.eq_of_getLsbD_eq
    intro i hi
    simp only [BitVec.getLsbD_and, BitVec.getLsbD_shiftLeft, BitVec.getLsbD_ushiftRight,
      BitVec.getLsbD_allOnes, hi]
    by_cases hn : i < n
    · simp [hn]
    · have hsub : i - n < 66 := by omega
      have hadd : n + (i - n) = i := by omega
      simp [hn, hsub, hadd]
  have hlt : w.toNat / 2 ^ n * 2 ^ n < 2 ^ 66 :=
    lt_of_le_of_lt (Nat.div_mul_le_self _ _) w.isLt
  rw [hshift, BitVec.toNat_shiftLeft, BitVec.toNat_ushiftRight, Nat.shiftLeft_eq,
    Nat.shiftRight_eq_div_pow, Nat.mod_eq_of_lt hlt]

/-- A row whose mask keeps the bits from `n` up matches the words with the same high bits as its
pattern. -/
theorem OpcodeRow.selects_of_highMask {r : OpcodeRow} {n k : Nat}
    (hmask : r.mask = BitVec.allOnes 66 <<< n) (hpattern : r.pattern.toNat = k * 2 ^ n)
    (w : BitVec 66) : r.selects w = decide (w.toNat / 2 ^ n = k) := by
  have hmatch : w &&& r.mask = r.pattern ↔ w.toNat / 2 ^ n = k := by
    rw [hmask, ← BitVec.toNat_inj, toNat_and_highMask, hpattern,
      Nat.mul_left_inj (Nat.two_pow_pos n).ne']
  rw [OpcodeRow.selects, beq_eq_decide]
  exact decide_eq_decide.mpr hmatch

/-! ### The table, row by row -/

/-- A row that fixes the kind alone: INIT, READ and WRITE.OTHER. -/
def kindRow (mnemonic : String) (kind priority : Nat) : OpcodeRow :=
  { mnemonic := mnemonic, pattern := BitVec.ofNat 66 (kind * 2 ^ 64),
    mask := BitVec.allOnes 66 <<< 64, priority := priority }

/-- The named registers in the order in which the dispatch of a WRITE tries them (R76, R106). -/
def dispatchOrder : List Reg :=
  [.cr, .cfgr, .crrcr, .pllcfgr, .cier, .cifr, .cicr, .bdcr, .csr, .ccipr, .ccipr2, .ahb1enr,
   .ahb2enr, .ahb3enr, .apb1enr1, .apb1enr2, .apb2enr, .icscr]

/-- The place of a register's row in the order of R76. -/
def rowPriority : Reg → Nat
  | .cr => 1
  | .cfgr => 2
  | .crrcr => 3
  | .icscr => 5
  | _ => 4

/-- The row of the WRITE at a named register: its mnemonic and pattern are those of the operation that the
dispatch selects there. -/
def registerRow (r : Reg) : OpcodeRow :=
  writeRow (dispatchWrite r.offset 0).mnemonic (BitVec.ofNat 66 (encode (dispatchWrite r.offset 0)))
    (rowPriority r)

/-- The 21 rows are the two requests that are no WRITE, the named registers in the order of the dispatch, and
the fallback. -/
theorem opcodeTable_eq : opcodeTable =
    kindRow "INIT" 0 0 :: kindRow "READ" 1 0 ::
      (dispatchOrder.map registerRow ++ [kindRow "WRITE.OTHER" 2 6]) := rfl

/-- A row that fixes the kind alone matches the words of that kind. -/
theorem kindRow_selects {kind : Nat} (hkind : kind < 4) (name : String) (priority : Nat)
    (w : BitVec 66) : (kindRow name kind priority).selects w = decide (wordKind w.toNat = kind) := by
  have hpattern : (kindRow name kind priority).pattern.toNat = kind * 2 ^ 64 := by
    simp only [kindRow, BitVec.toNat_ofNat]
    omega
  rw [OpcodeRow.selects_of_highMask (by rfl) hpattern, wordKind]

/-- A register's row matches the WRITE words with the register's offset. -/
theorem registerRow_selects (r : Reg) (w : BitVec 66) :
    (registerRow r).selects w = decide (wordKind w.toNat = 2 ∧ wordOffset w.toNat = r.offset) := by
  have hpattern : (registerRow r).pattern.toNat = (2 * 2 ^ 32 + r.offset) * 2 ^ 32 := by
    cases r <;> rfl
  have hoffset : r.offset < 2 ^ 32 := by
    cases r <;> decide
  have hfields : w.toNat / 2 ^ 32 = 2 * 2 ^ 32 + r.offset ↔
      wordKind w.toNat = 2 ∧ wordOffset w.toNat = r.offset := by
    unfold wordKind wordOffset
    omega
  rw [OpcodeRow.selects_of_highMask (by rfl) hpattern]
  exact decide_eq_decide.mpr hfields

/-- A register's row names the operation of a WRITE there, whatever the value. -/
theorem registerRow_mnemonic (r : Reg) (v : Nat) :
    (registerRow r).mnemonic = (dispatchWrite r.offset v).mnemonic := by
  cases r <;> rfl

/-! ### The row of each kind -/

/-- No two registers share an offset, so the first with a register's offset is that register. -/
theorem find_dispatchOrder (r : Reg) :
    (dispatchOrder.find? fun g => decide (r.offset = g.offset)) = some r := by
  cases r <;> decide

theorem selectRow_init {w : BitVec 66} (h : wordKind w.toNat = 0) :
    selectRow w = some (kindRow "INIT" 0 0) := by
  rw [selectRow_eq, opcodeTable_eq, List.find?_cons_of_pos]
  simp [kindRow_selects, h]

theorem selectRow_read {w : BitVec 66} (h : wordKind w.toNat = 1) :
    selectRow w = some (kindRow "READ" 1 0) := by
  rw [selectRow_eq, opcodeTable_eq, List.find?_cons_of_neg, List.find?_cons_of_pos]
  · simp [kindRow_selects, h]
  · simp [kindRow_selects, h]

/-- For a WRITE word the first matching row is the register's whose offset the word carries, the fallback
if there is none. -/
theorem selectRow_write {w : BitVec 66} (h : wordKind w.toNat = 2) :
    selectRow w =
      (((dispatchOrder.find? fun g => decide (wordOffset w.toNat = g.offset)).map registerRow).or
        (some (kindRow "WRITE.OTHER" 2 6))) := by
  have hrows : ((fun r : OpcodeRow => r.selects w) ∘ registerRow) =
      fun g => decide (wordOffset w.toNat = g.offset) := 
    funext fun r => by simp only [Function.comp, registerRow_selects, h, true_and]
  have hother : (kindRow "WRITE.OTHER" 2 6).selects w = true := by simp [kindRow_selects, h]
  rw [selectRow_eq, opcodeTable_eq, List.find?_cons_of_neg, List.find?_cons_of_neg,
    List.find?_append, List.find?_map, hrows, List.find?_singleton, if_pos hother]
  · simp [kindRow_selects, h]
  · simp [kindRow_selects, h]

/-- The row a WRITE word selects names the operation the dispatch selects (R76, R106). -/
theorem selectRow_write_mnemonic {w : BitVec 66} (h : wordKind w.toNat = 2) (v : Nat) :
    (selectRow w).map OpcodeRow.mnemonic =
      some (dispatchWrite (wordOffset w.toNat) v).mnemonic := by
  rw [selectRow_write h]
  by_cases ho : wordOffset w.toNat ∈ namedOffsets
  · obtain ⟨r, -, hr⟩ := mem_namedOffsets.mp ho
    rw [← hr, find_dispatchOrder, ← registerRow_mnemonic r v]
    rfl
  · have hnone : (dispatchOrder.find? fun g => decide (wordOffset w.toNat = g.offset)) = none := by
      rw [List.find?_eq_none]
      intro g _ hg
      exact ho (mem_namedOffsets.mpr ⟨g, by cases g <;> decide, (of_decide_eq_true hg).symm⟩)
    rw [hnone, dispatchWrite_unnamed ho]
    rfl

/-- No row matches a word of kind 3 (R79). -/
theorem selectRow_other {w : BitVec 66} (h : 3 ≤ wordKind w.toNat) : selectRow w = none := by
  have hkind : ∀ k < 3, wordKind w.toNat ≠ k := fun k hk => by omega
  rw [selectRow_eq, opcodeTable_eq, List.find?_eq_none]
  intro row hrow
  simp only [List.mem_cons, List.mem_append, List.mem_map, List.not_mem_nil, or_false] at hrow
  rcases hrow with rfl | rfl | ⟨r, -, rfl⟩ | rfl
  · simp [kindRow_selects, hkind]
  · simp [kindRow_selects, hkind]
  · simp [registerRow_selects, hkind]
  · simp [kindRow_selects, hkind]

end Sys2Proof

open Sys2Proof

/-- Settles O5, by the kind of the word. -/
theorem decoderAgreesWithOpcodeTable : Obligations.DecoderAgreesWithOpcodeTable := by
  intro w
  obtain h | h | h | h : wordKind w.toNat = 0 ∨ wordKind w.toNat = 1 ∨ wordKind w.toNat = 2 ∨
      3 ≤ wordKind w.toNat := by omega
  · rw [selectRow_init h, decodeWord_ok (reqOfWord_init h)]
    rfl
  · rw [selectRow_read h, decodeWord_ok (reqOfWord_read h)]
    rfl
  · rw [selectRow_write_mnemonic h, decodeWord_ok (reqOfWord_write h)]
    rfl
  · rw [selectRow_other h, decodeWord_error (reqOfWord_other h)]
    rfl
end

section
/-!
PROOF. The pseudo-operations of R81: a POLL, which is O42, and an RMW, which is O43.
-/

namespace Sys2Proof.Machine

/-- One step on an event that spells a request, in one equation: the request is served, and what is left of
the event stands before what the host was to do anyway (R5, R6, R81). -/
theorem step_eq_afterRequest {s : State} {e : HostEvent} {later : List HostEvent} {q : Req}
    (hs : s.host = e :: later) (hq : HostEvent.request e = .ok q) :
    step s = .next { s.afterRequest q with
      host := HostEvent.rest e (s.afterRequest q).resp ++ later } := by
  rw [step_of_request hs hq, exec_dispatch, afterRequest_with_host]
  rfl

/-! ### POLL -/

theorem rest_poll_of_met {t m want : Word} (h : t &&& m = want) (o : Nat) :
    HostEvent.rest (.poll o m want) (.value t) = [] := if_pos h

theorem rest_poll_of_not_met {t m want : Word} (h : t &&& m ≠ want) (o : Nat) :
    HostEvent.rest (.poll o m want) (.value t) = [.poll o m want] := if_neg h

/-- A poll whose condition does not hold leaves the host's list and the register file as they are. -/
theorem step_poll_of_not_met {s : State} {o : Nat} {m want : Word} {later : List HostEvent}
    (hs : s.host = .poll o m want :: later) (h : s.cell o &&& m ≠ want) :
    ∃ t, step s = .next t ∧ t.host = s.host ∧ t.rf = s.rf := by
  refine ⟨_, step_eq_afterRequest hs rfl, ?_, rfl⟩
  rw [hs]
  exact congrArg (· ++ later) (rest_poll_of_not_met h o)

/-- Each step leaves the poll and the cell it reads as they are, so the next one finds the same (R199). -/
theorem run_poll_of_not_met {s : State} {o : Nat} {m want : Word} {later : List HostEvent}
    (hs : s.host = .poll o m want :: later) (h : s.cell o &&& m ≠ want) (k : Nat) :
    ∃ t, Host.Core.run Sys2Proof.core k s = .next t ∧ t.host = s.host ∧ t.rf = s.rf := by
  induction k generalizing s with
  | zero => exact ⟨s, run_zero s, rfl, rfl⟩
  | succ k ih =>
    obtain ⟨s', hstep, hhost, hrf⟩ := step_poll_of_not_met hs h
    have hcell : s'.cell o = s.cell o := by rw [cell_eq, hrf, cell_eq]
    obtain ⟨t, hrun, hhost', hrf'⟩ := ih (hhost.trans hs) (hcell ▸ h)
    exact ⟨t, (run_succ_of_next hstep k).trans hrun, hhost'.trans hhost, hrf'.trans hrf⟩

end Sys2Proof.Machine

open Sys2Proof Sys2Proof.Machine

/-- Settles O42: the first READ answers the cell, and if its condition does not hold every later step finds
the same event and the same cell. -/
theorem pollEndsAtOnceOrNever : Obligations.PollEndsAtOnceOrNever := by
  intro s o m want later hs
  refine ⟨fun h => ⟨_, step_eq_afterRequest hs rfl, ?_, rfl, rfl⟩, run_poll_of_not_met hs⟩
  exact congrArg (· ++ later) (rest_poll_of_met h o)

/-- Settles O43: the READ leaves the WRITE of the changed value as the host's next event, and that WRITE
stores what the bit-level reading of the store rules gives (`storedWord_bit`). -/
theorem readModifyWriteIsReadThenWrite : Obligations.ReadModifyWriteIsReadThenWrite := by
  intro s o clr set later hs
  have hwrite := fun p => afterRequest_write_cell (s.afterRequest (.read o)) o
    (rmwValue (s.cell o) clr set).toNat p
  refine ⟨_, _, step_eq_afterRequest hs rfl, rfl, rfl, step_desc (s.afterRequest (.read o)) _ later,
    rfl, rfl, fun p hp => ?_, fun i => ?_⟩
  · exact (hwrite p).trans (if_neg hp)
  · exact (congrArg (BitVec.getLsbD · i) ((hwrite o).trans (if_pos rfl))).trans
      (storedWord_bit s o _ i)
end

section
/-!
PROOF. Every operation completes (R78, R170), which is O28, and the two rows of write rule 5 (R149, R150),
which is O26.
-/

namespace Sys2Proof.Machine

/-- The dispatch answers the fallback exactly at the offsets without a name (R76 order 5, R150). -/
theorem dispatch_eq_writeOther_iff {o v : Nat} :
    dispatch (.write o v) = .writeOther o v ↔ o ∉ namedOffsets := by
  constructor
  · intro h
    have hwf := dispatch_wellFormed (.write o v)
    rw [h] at hwf
    exact wellFormed_writeOther_iff.mp hwf
  · exact fun ho => dispatchWrite_unnamed ho v

/-- A well-formed operation is served as its own request. -/
theorem exec_of_wellFormed {i : Instr} (h : wellFormed i = true) (s : State) :
    exec i s = .next (s.afterRequest (toReq i)) := by
  rw [← exec_dispatch, dispatch_toReq h]

theorem exec_writeOther (o v : Nat) (s : State) :
    exec (.writeOther o v) s = writeVerbatim o v s := rfl

theorem exec_writeIcscr (v : Nat) (s : State) : exec (.writeIcscr v) s = writeVerbatim 0x04 v s := rfl

end Sys2Proof.Machine

open Sys2Proof Sys2Proof.Machine

/-- Settles O26: both operations are plain stores, and the fallback's offsets are those without a name. -/
theorem fallbackWritesStoreVerbatim : Obligations.FallbackWritesStoreVerbatim := by
  intro o v s
  have hunnamed : o ∉ namedOffsets ↔ ∀ r ∈ Reg.all, o ≠ r.offset := by
    simp only [mem_namedOffsets, not_exists, not_and, ne_comm]
  refine ⟨⟨rfl, ?_⟩, dispatch_eq_writeOther_iff.trans hunnamed, ?_⟩
  · rw [exec_writeIcscr]
    exact writeVerbatim_storesOnly 0x04 v s
  · rw [exec_writeOther]
    exact writeVerbatim_storesOnly o v s

/-- Settles O28: a term no request selects is a WRITE.OTHER, a plain store at any offset; the others are
served as their own request. -/
theorem everyOperationCompletes : Obligations.EveryOperationCompletes := by
  intro i s
  cases i with
  | writeOther o v =>
    obtain ⟨t, ht, -⟩ := writeVerbatim_storesOnly o v s
    exact ⟨t, ht⟩
  | _ => exact ⟨_, exec_of_wellFormed rfl s⟩
end

section
/-!
PROOF. INIT's end state (R90, R91), which is O13: the cells of the reset state's register file, read one
by one, and the register file INIT leaves, which mentions nothing of the start state.
-/

namespace Sys2Proof.Machine

theorem reset_cell_cr : State.reset.cell 0x00 = 0x00000500#32 := rfl

theorem reset_cell_of_ne {o : Nat} (h : o ≠ 0x00) : State.reset.cell o = 0 := if_neg h

/-- INIT leaves the reset state's register file, whatever the state before (R91, D9). -/
theorem afterRequest_init_rf (s : State) : (s.afterRequest .init).rf = State.reset.rf := rfl

end Sys2Proof.Machine

open Sys2Proof Sys2Proof.Machine

/-- Settles O13: INIT's cells are the reset state's, from any state, and so from INIT's own end state. -/
theorem initEndState : Obligations.InitEndState := by
  intro s
  have hcell : ∀ o, (s.afterRequest .init).cell o = State.reset.cell o := afterRequest_init_cell s
  have hagain : ((s.afterRequest .init).afterRequest .init).rf = (s.afterRequest .init).rf := by
    rw [afterRequest_init_rf, afterRequest_init_rf]
  refine ⟨s.afterRequest .init, exec_dispatch .init s, ?_, ?_, fun o ho => ?_,
    afterRequest_init_rf s, rfl, rfl, rfl, _, exec_dispatch .init _, hagain⟩
  · rw [hcell, reset_cell_cr]
  · exact (hcell 0x08).trans (reset_cell_of_ne (by decide))
  · rw [hcell, reset_cell_of_ne ho]
end

section
/-!
PROOF. READ (R100), which is O15: a word of kind 1 spells it whatever the value field (R74), and the state
after it differs from the one before in the response and the trace alone.
-/

namespace Sys2Proof.Machine

/-- A word of kind 1 carries a READ of its offset field; the value field is ignored (R73, R74). -/
theorem reqOfWord_read_of_fields {o v : Nat} (ho : o < 2 ^ 32) (hv : v < 2 ^ 32) :
    reqOfWord (1 * 2 ^ 64 + o * 2 ^ 32 + v) = .ok (.read o) := by
  obtain ⟨hkind, hoffset, -⟩ := word_fields 1 o v ho hv
  rw [reqOfWord_read hkind, hoffset]

/-- A cell without an entry reads 0 (R11). -/
theorem cell_of_absent {s : State} {o : Nat} (h : ∀ c ∈ s.rf, c.1 ≠ o) : s.cell o = 0 :=
  RegFile.get_of_absent h

@[simp] theorem afterRequest_read_resp (s : State) (o : Nat) :
    (s.afterRequest (.read o)).resp = .value (s.cell o) := rfl
@[simp] theorem afterRequest_read_rf (s : State) (o : Nat) :
    (s.afterRequest (.read o)).rf = s.rf := rfl
@[simp] theorem afterRequest_read_trace (s : State) (o : Nat) :
    (s.afterRequest (.read o)).trace = s.trace ++ [.read o] := rfl
@[simp] theorem afterRequest_read_host (s : State) (o : Nat) :
    (s.afterRequest (.read o)).host = s.host := rfl

end Sys2Proof.Machine

open Sys2Proof Sys2Proof.Machine

/-- Settles O15: the word carries the READ of its offset field, and the state after a READ has the cell as
its response, which is 0 where no entry is listed. -/
theorem readAnswersTheCell : Obligations.ReadAnswersTheCell := by
  refine ⟨fun o v ho hv => decodeWord_ok (reqOfWord_read_of_fields ho hv), fun o s => ⟨rfl, ?_⟩⟩
  have hzero : (∀ c ∈ s.rf, c.1 ≠ o) → (s.afterRequest (.read o)).resp = .value 0 := fun habsent => by
    rw [afterRequest_read_resp, cell_of_absent habsent]
  exact ⟨s.afterRequest (.read o), exec_dispatch (.read o) s, afterRequest_read_resp s o,
    afterRequest_read_rf s o, hzero, afterRequest_read_trace s o, afterRequest_read_host s o⟩
end

section
/-!
PROOF. What a WRITE stores, by its offset: the CFGR store in its closed form (R120), which is O18, the
pass-through registers (R135 to R148), which are O23, O24 and O25, and signed host words (R75, D3), which
is O32.
-/

namespace Sys2Proof.Machine

/-- The WRITE at an offset is a store into that cell and nothing else, of the word the store rules give
(R105, R107). -/
theorem exec_dispatch_write_storesOnly (o v : Nat) (s : State) :
    storesOnly (exec (dispatch (.write o v)) s) s o (storedWord (s.cell 0x00) o (mask32 v))
      (.write o (mask32 v)) := by
  refine ⟨_, exec_dispatch_write o v s, ?_, fun p hp => ?_, rfl, rfl, rfl⟩
  · rw [afterWrite_cell, if_pos rfl]
  · rw [afterWrite_cell, if_neg hp]

/-! ### The offsets without a store rule of their own -/

theorem storedWord_of_plain {o : Nat} (h : o ≠ 0x00 ∧ o ≠ 0x08 ∧ o ≠ 0x98) (cr v : Word) :
    storedWord cr o v = v := by
  obtain ⟨hcr, hcfgr, hcrrcr⟩ := h
  rw [storedWord, if_neg hcr, if_neg hcfgr, if_neg hcrrcr]

/-- The operation selected at an offset that is none of the three specially interpreted ones stores the
cut value verbatim (write rules 4 and 5 of R105). -/
theorem selected_storesVerbatim {o v : Nat} {i : Instr} (hsel : dispatch (.write o v) = i)
    (hplain : o ≠ 0x00 ∧ o ≠ 0x08 ∧ o ≠ 0x98) (s : State) :
    dispatch (.write o v) = i ∧
      storesOnly (exec i s) s o (BitVec.ofNat 32 v) (.write o (BitVec.ofNat 32 v)) := by
  have hstore := exec_dispatch_write_storesOnly o v s
  rw [storedWord_of_plain hplain, hsel] at hstore
  exact ⟨hsel, hstore⟩

/-! ### Signed host words -/

/-- A value that fits a word is not changed by the cut (R8). -/
theorem mask32_toNat_word (w : Word) : mask32 w.toNat = w := by
  apply BitVec.eq_of_toNat_eq
  rw [mask32_toNat, Nat.mod_eq_of_lt w.isLt]

/-- The WRITE of a signed host word is the WRITE of its low 32 bits (R75, D3). -/
theorem exec_dispatch_write_signedHostWord {width : Nat} (h : 32 ≤ width) (o : Nat) (x : Int)
    (s : State) :
    exec (dispatch (.write o (signedHostWord width x))) s =
      .next (s.afterWrite o (BitVec.ofInt 32 x)) := by
  rw [exec_dispatch_write, mask32_signedHostWord h]

/-- With every bit set each enable bit agrees with its ready bit, and SW with SWS under MSI, which is
always ready (R110, R120, R130): the value is stored as written at every offset. -/
theorem storedWord_allOnes (cr : Word) (o : Nat) : storedWord cr o 0xFFFFFFFF#32 = 0xFFFFFFFF#32 := by
  have hcr : crStore 0xFFFFFFFF#32 = 0xFFFFFFFF#32 := by decide
  have hcfgr : cfgrNext 0xFFFFFFFF#32 cr = 0xFFFFFFFF#32 :=
    (cfgrNext_of_ready (by rfl)).trans (by decide)
  have hcrrcr : crrcrStore 0xFFFFFFFF#32 = 0xFFFFFFFF#32 := by decide
  rw [storedWord, hcr, hcfgr, hcrrcr, ite_self, ite_self, ite_self]

end Sys2Proof.Machine

open Sys2Proof Sys2Proof.Machine

/-- Settles O18: the store rule of CFGR is `cfgrNext`, whose closed form is `cfgrStoreClosed`. -/
theorem writeCfgrStoresRecomputedSws : Obligations.WriteCfgrStoresRecomputedSws := by
  intro v s
  have hstore := exec_dispatch_write_storesOnly 0x08 v s
  have hclosed : storedWord (s.cell 0x00) 0x08 (mask32 v) =
      cfgrStoreClosed (mask32 v) (s.cell 0x00) := cfgrNext_eq_closed _ _
  rw [hclosed] at hstore
  exact ⟨rfl, hstore⟩

/-- Settles O32: the outcome depends on the value through its cut alone, which is the integer's low 32
bits; where no store rule applies they are stored, and every store rule leaves the all-ones word as it
is. -/
theorem signedHostWordsAreTakenBitForBit : Obligations.SignedHostWordsAreTakenBitForBit := by
  intro o width s hwidth
  have hexec := fun x => exec_dispatch_write_signedHostWord hwidth o x s
  refine ⟨fun x => ?_, fun hcr hcfgr hcrrcr x => ⟨_, hexec x, ?_⟩, _, hexec (-1), ?_⟩
  · rw [hexec, exec_dispatch_write, mask32_toNat_word]
  · rw [afterWrite_cell, if_pos rfl, storedWord_of_plain ⟨hcr, hcfgr, hcrrcr⟩]
  · rw [afterWrite_cell, if_pos rfl]
    exact storedWord_allOnes _ o

/-- Settles O23: each of the four offsets selects its register's plain store. -/
theorem clockAndInterruptWritesStoreVerbatim : Obligations.ClockAndInterruptWritesStoreVerbatim :=
  fun _ s =>
    ⟨selected_storesVerbatim rfl (by decide) s, selected_storesVerbatim rfl (by decide) s,
      selected_storesVerbatim rfl (by decide) s, selected_storesVerbatim rfl (by decide) s⟩

/-- Settles O24: each of the four offsets selects its register's plain store. -/
theorem domainAndSelectionWritesStoreVerbatim : Obligations.DomainAndSelectionWritesStoreVerbatim :=
  fun _ s =>
    ⟨selected_storesVerbatim rfl (by decide) s, selected_storesVerbatim rfl (by decide) s,
      selected_storesVerbatim rfl (by decide) s, selected_storesVerbatim rfl (by decide) s⟩

/-- Settles O25: each of the six offsets selects its register's plain store. -/
theorem enableWritesStoreVerbatim : Obligations.EnableWritesStoreVerbatim :=
  fun _ s =>
    ⟨selected_storesVerbatim rfl (by decide) s, selected_storesVerbatim rfl (by decide) s,
      selected_storesVerbatim rfl (by decide) s, selected_storesVerbatim rfl (by decide) s,
      selected_storesVerbatim rfl (by decide) s, selected_storesVerbatim rfl (by decide) s⟩
end

section
/-!
PROOF. WRITE.CR (R110, R111, R112): the store into CR, which is O16, and the bits of the written value
that reach it, which is O17.
-/

namespace Sys2Proof.Machine

/-- WRITE.CR is the store of `cr_store` of the cut value into CR, whatever the state (R110). -/
theorem exec_writeCr (v : Nat) (s : State) :
    storesOnly (exec (.writeCr v) s) s 0x00 (crStore (mask32 v)) (.write 0x00 (mask32 v)) :=
  exec_dispatch_write_storesOnly 0x00 v s

/-- The bit of the written value that ends in bit `i` of CR: the enable bit for each ready bit (R110),
bit `i` itself for the others (R112). -/
def crSourceBit (i : Nat) : Nat :=
  if i = 10 then 8 else if i = 17 then 16 else if i = 25 then 24 else i

theorem crSourceBit_of_not_ready {i : Nat} (h10 : i ≠ 10) (h17 : i ≠ 17) (h25 : i ≠ 25) :
    crSourceBit i = i := by
  rw [crSourceBit, if_neg h10, if_neg h17, if_neg h25]

theorem crSourceBit_lt {i : Nat} (hi : i < 32) : crSourceBit i < 32 := by
  unfold crSourceBit
  split_ifs <;> omega

/-- No bit of CR is taken from a written ready bit (R111). -/
theorem crSourceBit_not_ready (i : Nat) :
    crSourceBit i ≠ 10 ∧ crSourceBit i ≠ 17 ∧ crSourceBit i ≠ 25 := by
  unfold crSourceBit
  split_ifs <;> omega

/-- `cr_store` of the cut value, bit by bit (R105, R110). -/
theorem crStore_mask32_bit (v : Nat) {i : Nat} (hi : i < 32) :
    (crStore (mask32 v)).getLsbD i = v.testBit (crSourceBit i) := by
  rw [crStore_bit_eq_source, ← crSourceBit, mask32_bit, decide_eq_true (crSourceBit_lt hi),
    Bool.true_and]

/-- Values that differ in the ready bits alone, below bit 32, are stored alike (R111). -/
theorem crStore_mask32_congr {v v' : Nat}
    (h : ∀ i, i < 32 → i ≠ 10 → i ≠ 17 → i ≠ 25 → v'.testBit i = v.testBit i) :
    crStore (mask32 v') = crStore (mask32 v) := by
  apply BitVec.eq_of_getLsbD_eq
  intro i hi
  obtain ⟨h10, h17, h25⟩ := crSourceBit_not_ready i
  rw [crStore_mask32_bit v' hi, crStore_mask32_bit v hi]
  exact h (crSourceBit i) (crSourceBit_lt hi) h10 h17 h25

end Sys2Proof.Machine

open Sys2Proof Sys2Proof.Machine

/-- Settles O16: the store rule of CR is `crStore`, whose closed form is `crStoreClosed`. -/
theorem writeCrStoresForcedReadyBits : Obligations.WriteCrStoresForcedReadyBits := by
  intro v s
  have hstore := exec_writeCr v s
  rw [crStore_eq_closed] at hstore
  exact ⟨rfl, hstore⟩

/-- Settles O17: each bit of CR comes from the written bit `crSourceBit` names, which is never a ready
bit. -/
theorem crReadyBitsFollowEnableBits : Obligations.CrReadyBitsFollowEnableBits := by
  intro v s
  obtain ⟨t, hexec, hcell, -⟩ := exec_writeCr v s
  have hbit : ∀ i, i < 32 → (t.cell 0x00).getLsbD i = v.testBit (crSourceBit i) := fun i hi => by
    rw [hcell, crStore_mask32_bit v hi]
  refine ⟨t, hexec, hbit 10 (by decide), hbit 17 (by decide), hbit 25 (by decide),
    fun i hi h10 h17 h25 => ?_, fun v' hagree => ?_⟩
  · rw [hbit i hi, crSourceBit_of_not_ready h10 h17 h25]
  · obtain ⟨t', hexec', hcell', -⟩ := exec_writeCr v' s
    exact ⟨t', hexec', by rw [hcell', hcell, crStore_mask32_congr hagree]⟩
end

section
/-!
PROOF. WRITE.CFGR and the fields SW and SWS: MSI is always selectable (R124), which is O19, the transition
table of SWS and SW over every operation (R162), which is O20, and a source made ready after it was
selected (R163, R195), which is O41.
-/

namespace Sys2Proof.Machine

/-! ### SW and SWS of the value written -/

theorem mask32_toNat_mod_four (v : Nat) : (mask32 v).toNat % 4 = v % 4 := by
  rw [mask32_toNat]
  omega

/-- SW of the value written is its low two bits (R36). -/
theorem swOf_mask32 (v : Nat) : swOf (mask32 v) = BitVec.ofNat 2 v := by
  apply BitVec.eq_of_toNat_eq
  rw [swOf_toNat, mask32_toNat_mod_four, BitVec.toNat_ofNat]

/-- SWS of the value written is its bits 3:2 (R37). -/
theorem swsOf_mask32 (v : Nat) : swsOf (mask32 v) = BitVec.ofNat 2 (v / 4) := by
  apply BitVec.eq_of_getLsbD_eq
  intro i hi
  have h32 : 2 + i < 32 := by omega
  rw [swsOf_bit, mask32_bit, BitVec.getLsbD_ofNat, decide_eq_true h32, Bool.true_and,
    decide_eq_true hi, Bool.true_and, Nat.add_comm]
  exact (Nat.testBit_div_two_pow (n := 2) v i).symm

/-- The low nibble of a CFGR value is SWS above SW (R9). -/
theorem extractLsb'_nibble (c : Word) : c.extractLsb' 0 4 = swsOf c ++ swOf c :=
  (BitVec.extractLsb'_append_extractLsb'_eq_extractLsb' (start₁ := 0) (len₁ := 2) (len₂ := 2)
    rfl).symm

/-! ### SW and SWS as a CFGR write leaves them -/

/-- WRITE.CFGR is the store of the cut value with SWS recomputed from it and from CR (R120). -/
theorem exec_writeCfgr (v : Nat) (s : State) :
    storesOnly (exec (.writeCfgr v) s) s 0x08 (cfgrNext (mask32 v) (s.cell 0x00))
      (.write 0x08 (mask32 v)) :=
  exec_dispatch_write_storesOnly 0x08 v s

/-- A CFGR store takes SW as written (R155). -/
theorem swOf_cfgrNext_mask32 (v : Nat) (cr : Word) :
    swOf (cfgrNext (mask32 v) cr) = BitVec.ofNat 2 v := by
  rw [cfgrNext, swOf_withSws, swOf_mask32]

/-- A CFGR store makes SWS the source named when it is ready, and the written bits 3:2 when it is not
(R155, R157; the hold case is conflict C1). -/
theorem swsOf_cfgrNext_mask32 (v : Nat) (cr : Word) :
    swsOf (cfgrNext (mask32 v) cr) =
      if sourceReady cr (v % 4) = true then BitVec.ofNat 2 v else BitVec.ofNat 2 (v / 4) := by
  rw [cfgrNext, swsOf_withSws, swsNext_eq, mask32_toNat_mod_four, swOf_mask32, swsOf_mask32]

/-! ### The operations that leave CFGR alone -/

/-- A well-formed operation other than INIT and WRITE.CFGR completes and leaves CFGR as it is (R42). -/
theorem exec_keeps_cfgr {i : Instr} (hwf : wellFormed i = true) (hinit : i ≠ .init)
    (hcfgr : ∀ v, i ≠ .writeCfgr v) (s : State) :
    ∃ t, exec i s = .next t ∧ t.cell 0x08 = s.cell 0x08 := by
  have hexec := exec_of_wellFormed hwf s
  refine ⟨_, hexec, by_contra fun hchange => ?_⟩
  rcases cfgrChangesOnlyByInitOrCfgrWrite i s _ hwf hexec hchange with h | ⟨v, h⟩
  · exact hinit h
  · exact hcfgr v h

/-! ### Runs of CFGR and CR writes -/

theorem afterRequests_writeCfgr (v : Nat) (s : State) :
    ∃ t, afterRequests [.write 0x08 v] s = .next t ∧
      t.cell 0x08 = cfgrNext (mask32 v) (s.cell 0x00) :=
  ⟨_, afterRequests_eq _ s, afterRequest_write_cell s 0x08 v 0x08⟩

/-- The CR write leaves CFGR as the CFGR write stored it: `applySwsFromSw` does not run (R113). -/
theorem afterRequests_writeCfgr_writeCr (v w : Nat) (s : State) :
    ∃ t, afterRequests [.write 0x08 v, .write 0x00 w] s = .next t ∧
      t.cell 0x08 = cfgrNext (mask32 v) (s.cell 0x00) ∧ t.cell 0x00 = crStore (mask32 w) := by
  refine ⟨_, afterRequests_eq _ s, ?_, afterRequest_write_cell _ 0x00 w 0x00⟩
  calc ((s.afterRequest (.write 0x08 v)).afterRequest (.write 0x00 w)).cell 0x08
      = (s.afterRequest (.write 0x08 v)).cell 0x08 := afterRequest_cell_of_not_touches rfl _
    _ = cfgrNext (mask32 v) (s.cell 0x00) := afterRequest_write_cell s 0x08 v 0x08

/-- After a CR write the source `sw` is ready exactly if the write set its enable bit (R110). -/
theorem sourceReady_crStore_mask32 {sw : Nat} (h : sw < 3) (w : Nat) :
    sourceReady (crStore (mask32 w)) sw =
      w.testBit (if sw = 0 then 8 else if sw = 1 then 16 else 24) :=
  match sw, h with
  | 0, _ => crStore_mask32_bit w (i := 10) (by decide)
  | 1, _ => crStore_mask32_bit w (i := 17) (by decide)
  | 2, _ => crStore_mask32_bit w (i := 25) (by decide)

end Sys2Proof.Machine

open Sys2Proof Sys2Proof.Machine

/-- Settles O19: the store takes SW = 3 as written, and with it SWS is 3 too. -/
theorem msiIsAlwaysSelectable : Obligations.MsiIsAlwaysSelectable := by
  intro v s hv
  obtain ⟨t, hexec, hcell, -⟩ := exec_writeCfgr v s
  have hsw : swOf (t.cell 0x08) = 3 := by
    rw [hcell, swOf_cfgrNext_mask32]
    exact BitVec.eq_of_toNat_eq hv
  have hsws : swsOf (t.cell 0x08) = 3 := by
    rw [hcell] at hsw ⊢
    exact cfgrNext_msiHonoured _ _ hsw
  refine ⟨t, hexec, ?_⟩
  rw [extractLsb'_nibble, hsw, hsws]
  rfl

/-- Settles O20: INIT's end state is the reset state's, a CFGR write recomputes SWS, and every other
operation leaves CFGR alone. -/
theorem swsTransitionTable : Obligations.SwsTransitionTable := by
  intro i s hwf
  cases i with
  | init =>
    refine ⟨_, exec_dispatch .init s, ?_⟩
    rw [afterRequest_init_cell, reset_cell_of_ne (by decide)]
    exact ⟨rfl, rfl⟩
  | writeCfgr v =>
    obtain ⟨t, hexec, hcell, -⟩ := exec_writeCfgr v s
    have hsw := swOf_cfgrNext_mask32 v (s.cell 0x00)
    have hsws := swsOf_cfgrNext_mask32 v (s.cell 0x00)
    rw [← hcell] at hsw hsws
    refine ⟨t, hexec, hsw, hsws.trans ?_⟩
    have hv : BitVec.ofNat 2 v = BitVec.ofNat 2 (v % 4) := by bv_omega
    have hsource : v % 4 = 0 ∨ v % 4 = 1 ∨ v % 4 = 2 ∨ v % 4 = 3 := by omega
    rw [hv]
    rcases hsource with h | h | h | h <;> simp [h, sourceReady]
  | _ => exact exec_keeps_cfgr hwf (by simp) (by simp) s

/-- Settles O41: the first CFGR write is the hold case, the CR write makes the source ready without a look
at CFGR, and the second CFGR write finds it ready. -/
theorem lateReadyNeedsAnotherCfgrWrite : Obligations.LateReadyNeedsAnotherCfgrWrite := by
  intro sw v w s hsw hv hnotReady hon
  obtain ⟨t, hrun, hcfgr, hcr⟩ := afterRequests_writeCfgr_writeCr v w s
  obtain ⟨u, hagain, hswitched⟩ := afterRequests_writeCfgr v t
  have hready : sourceReady (t.cell 0x00) sw = true := by
    rw [hcr, sourceReady_crStore_mask32 hsw, hon]
  have hheld : t.cell 0x08 = mask32 v := by
    rw [hcfgr, cfgrNext_of_not_ready (by rwa [mask32_toNat_mod_four, hv])]
  have hsws : swsOf (u.cell 0x08) = BitVec.ofNat 2 v := by
    rw [hswitched, swsOf_cfgrNext_mask32, hv, if_pos hready]
  have htarget : BitVec.ofNat 2 v = BitVec.ofNat 2 sw := by bv_omega
  exact ⟨t, u, hrun, hheld, hready, hagain, hsws.trans htarget⟩
end

section
/-!
PROOF. WRITE.CRRCR (R130): the store into CRRCR, which is O21.
-/

namespace Sys2Proof.Machine

/-- WRITE.CRRCR is the store of `crrcr_store` of the cut value into CRRCR, whatever the state (R130). -/
theorem exec_writeCrrcr (v : Nat) (s : State) :
    storesOnly (exec (.writeCrrcr v) s) s 0x98 (crrcrStore (mask32 v)) (.write 0x98 (mask32 v)) :=
  exec_dispatch_write_storesOnly 0x98 v s

end Sys2Proof.Machine

open Sys2Proof Sys2Proof.Machine

/-- Settles O21: the store rule of CRRCR is `crrcrStore`, whose closed form is `crrcrStoreClosed`. -/
theorem writeCrrcrStoresForcedReadyBit : Obligations.WriteCrrcrStoresForcedReadyBit := by
  intro v s
  have hstore := exec_writeCrrcr v s
  rw [crrcrStore_eq_closed] at hstore
  exact ⟨rfl, hstore⟩
end

section
/-!
PROOF. The write pass-through (R151): the READ right after a WRITE at the offsets without a store rule of
their own, which is O34.
-/

open Sys2Proof Sys2Proof.Machine

/-- Settles O34: the READ answers the stored word, and away from CR, CFGR and CRRCR the stored word is the
cut value itself. -/
theorem readYourWrite : Obligations.ReadYourWrite := by
  intro o v s hcr hcfgr hcrrcr
  have hread := afterRequests_write_read o v s
  rwa [storedWord_of_plain ⟨hcr, hcfgr, hcrrcr⟩] at hread
end

section
/-!
PROOF. The recomputation of SWS on its own (R155, R158, R159), which is O22.
-/

namespace Sys2Proof.Machine

/-- The decision table asks for the SW it leaves in place and for CR: recomputing SWS a second time finds
the same row (R159). -/
theorem cfgrNext_cfgrNext (c cr : Word) : cfgrNext (cfgrNext c cr) cr = cfgrNext c cr := by
  cases hready : sourceReady cr (c.toNat % 4) with
  | false => rw [cfgrNext_of_not_ready hready, cfgrNext_of_not_ready hready]
  | true =>
    have hsw : swOf (cfgrNext c cr) = swOf c := swOf_withSws c _
    have hsws : swsOf (cfgrNext c cr) = swOf c := by
      rw [cfgrNext_of_ready hready, swsOf_withSws]
    have hready' : sourceReady cr ((cfgrNext c cr).toNat % 4) = true := by
      rwa [← swOf_toNat, hsw, swOf_toNat]
    rw [cfgrNext_of_ready hready', hsw, ← hsws, withSws_swsOf]

/-- The recomputation leaves SW and every bit above SWS as they were (R155). -/
theorem cfgrNext_bit_of_ne {i : Nat} (h2 : i ≠ 2) (h3 : i ≠ 3) (c cr : Word) :
    (cfgrNext c cr).getLsbD i = c.getLsbD i := by
  rw [cfgrNext, withSws_bit, if_neg h2, if_neg h3]

/-- `applySwsFromSw` is one store of CFGR with SWS recomputed. -/
theorem applySwsFromSw_eq_setCell (s : State) :
    s.applySwsFromSw = s.setCell 0x08 (cfgrNext (s.cell 0x08) (s.cell 0x00)) := rfl

/-- Running `applySwsFromSw` twice is running it once: the second store overwrites the first with the same
word (R159). -/
theorem applySwsFromSw_applySwsFromSw (s : State) :
    s.applySwsFromSw.applySwsFromSw = s.applySwsFromSw := by
  rw [applySwsFromSw_eq_setCell s, setCell_cfgr_applySwsFromSw, cfgrNext_cfgrNext]

/-- In the hold case (row 5 of R155) every cell keeps its value, CFGR with the rest (R158). -/
theorem applySwsFromSw_cell_of_not_ready {s : State}
    (h : sourceReady (s.cell 0x00) ((s.cell 0x08).toNat % 4) = false) (o : Nat) :
    s.applySwsFromSw.cell o = s.cell o := by
  rw [applySwsFromSw_cell, cfgrNext_of_not_ready h]
  split
  · next ho => rw [ho]
  · rfl

end Sys2Proof.Machine

open Sys2Proof Sys2Proof.Machine

/-- Settles O22: the one cell stored is CFGR, and the word stored there differs from the old one at most in
SWS. -/
theorem applySwsChangesOnlySws : Obligations.ApplySwsChangesOnlySws := by
  intro s
  refine ⟨fun o ho => ?_, fun i h2 h3 => ?_, applySwsFromSw_cell_of_not_ready,
    applySwsFromSw_applySwsFromSw s, rfl, rfl⟩
  · rw [applySwsFromSw_cell, if_neg ho]
  · rw [applySwsFromSw_cell, if_pos rfl, cfgrNext_bit_of_ne h2 h3]
end

section
/-!
PROOF. The trace of a run (R184, R185): one line per request, which is O38, and the text of INIT's line,
which is O39.
-/

namespace Sys2Proof.Machine

/-- Every request hands its own line to the sink, after the lines already there (R184). -/
theorem afterRequest_trace (s : State) (q : Req) :
    (s.afterRequest q).trace = s.trace ++ [traceOf q] := by
  cases q <;> rfl

theorem foldl_afterRequest_trace (qs : List Req) (s : State) :
    (qs.foldl State.afterRequest s).trace = s.trace ++ qs.map traceOf := by
  induction qs generalizing s with
  | nil => exact (List.append_nil _).symm
  | cons q qs ih =>
    rw [List.foldl_cons, ih, afterRequest_trace, List.append_assoc, List.singleton_append,
      List.map_cons]

end Sys2Proof.Machine

open Sys2Proof Sys2Proof.Machine

/-- Settles O38: the run is the fold of `afterRequest`, and each request of it adds its line. -/
theorem oneTraceLinePerRequest : Obligations.OneTraceLinePerRequest :=
  fun qs s => ⟨_, afterRequests_eq qs s, foldl_afterRequest_trace qs s⟩

/-- Settles O39: INIT's line is a fixed text. -/
theorem initTraceText : Obligations.InitTraceText := fun _ => rfl
end

section
/-!
PROOF. A host whose events all spell requests (R170): it is never refused, which is O49, and the word
placed by `withFetchWord` is one such event, which is O8.
-/

namespace Sys2Proof.Machine

/-! ### Runs without a refusal -/

/-- Every event on the list spells a request: no size but 4, no address outside the window, no kind but
0, 1 and 2. -/
def SpellRequests (es : List HostEvent) : Prop := ∀ e ∈ es, ∃ q, HostEvent.request e = .ok q

/-- What an event leaves for the host to do is the WRITE of an RMW or the POLL itself, and both spell
requests (R81). -/
theorem spellRequests_rest (e : HostEvent) (r : Resp) : SpellRequests (HostEvent.rest e r) := by
  intro e' he'
  unfold HostEvent.rest at he'
  split at he'
  case h_1 o clr set t =>
    obtain rfl := List.mem_singleton.mp he'
    exact ⟨_, rfl⟩
  case h_2 o m want t =>
    split at he'
    · exact absurd he' List.not_mem_nil
    · obtain rfl := List.mem_singleton.mp he'
      exact ⟨_, rfl⟩
  case h_3 => exact absurd he' List.not_mem_nil

/-- A step of such a host completes, and the host it leaves is such a host again. -/
theorem step_of_spellRequests {s : State} (h : SpellRequests s.host) :
    ∃ t, step s = .next t ∧ SpellRequests t.host := by
  cases hs : s.host with
  | nil => exact ⟨s, step_of_host_nil hs, h⟩
  | cons e later =>
    rw [hs] at h
    obtain ⟨⟨q, hq⟩, hlater⟩ := List.forall_mem_cons.mp h
    exact ⟨_, step_eq_afterRequest hs hq,
      List.forall_mem_append.mpr ⟨spellRequests_rest e _, hlater⟩⟩

/-! ### A word placed as the next event -/

/-- The host's view of the decoder is the decoder on the word cut to its bits (log entry 8). -/
theorem decodeTableWord_eq_some_iff {nbits w : Nat} {i : Instr} :
    decodeTableWord nbits w = some i ↔ decodeWord (w % 2 ^ nbits) = .ok i := by
  unfold decodeTableWord
  cases decodeWord (w % 2 ^ nbits) <;> simp

end Sys2Proof.Machine

open Sys2Proof Sys2Proof.Machine

/-- Settles O49: each step completes and leaves the host with events that spell requests. -/
theorem requestsAreNeverRefused : Obligations.RequestsAreNeverRefused := by
  intro k
  induction k with
  | zero => exact fun s _ => ⟨s, run_zero s⟩
  | succ k ih =>
    intro s hs
    obtain ⟨s', hstep, hs'⟩ := step_of_spellRequests hs
    obtain ⟨t, hrun⟩ := ih s' hs'
    exact ⟨t, (run_succ_of_next hstep k).trans hrun⟩

/-- Settles O8: the placed word is the host's next event, and the step on a word that decodes is O6. -/
theorem fetchWordRunsNext : Obligations.FetchWordRunsNext := by
  intro s nbits w i hw
  exact stepRunsDecodedWord (s.withFetchWord nbits w) (w % 2 ^ nbits) s.host i rfl
    (decodeTableWord_eq_some_iff.mp hw)
end
